-- ==== Sys2Proof/Word.lean ====
section
/-! DEFINITION. The word types of the core (00_scope.md R6, R8, R9): every word is a 32-bit unsigned value, and
addition of words is `BitVec` addition, which reduces mod 2^32 (41_scheduler.md R144). Nothing is signed. -/

namespace Sys2Proof

/-- `u32` (R8). -/
abbrev Word := BitVec 32

/-- One byte of the message buffer or of the digest (R10). -/
abbrev Byte := BitVec 8

/-- The 64-bit transaction word `A, D` of formats HW and HR (30_encoding.md R80): A in bits 63:32, D in bits 31:0. -/
abbrev TxWord := BitVec 64

end Sys2Proof
end

