-- ==== Sys2Proof/Syntax.lean ====
section
/-! DEFINITION. The syntax of the core's "instructions" (30_encoding.md R80): one constructor of `Instr` for each row of
spec/opcode_table.json, the raw forms they are decoded from, and the names of phases (R88) and error codes (R87). -/

namespace Sys2Proof

/-- One row of spec/opcode_table.json each. `a` is A[31:2] of an offset, `d` is the write data D, `i` is A[4:2] of a
DIGEST offset, `k` is the index of a window word (30_encoding.md R81, R84). -/
inductive Instr where
  /- HW and HR: misaligned offsets (20_memory.md R55), by A[1:0]. -/
  | wrMisaligned01 (a : BitVec 30) (d : Word)
  | rdMisaligned01 (a : BitVec 30)
  | wrMisaligned10 (a : BitVec 30) (d : Word)
  | rdMisaligned10 (a : BitVec 30)
  | wrMisaligned11 (a : BitVec 30) (d : Word)
  | rdMisaligned11 (a : BitVec 30)
  /- HW and HR: the CMD port (R201 to R206). -/
  | nop
  | start
  | cmdIllegal (d : Word)
  | cmdBusy (d : Word)
  | rdCmd
  /- HW and HR: STATUS and MSG_LEN (R207, R208, R210 to R212, R216). -/
  | wrStatus (d : Word)
  | rdStatus
  | wrMsgLenLo (d : Word)
  | wrMsgLenHi (d : Word)
  | rdMsgLenLo
  | rdMsgLenHi
  /- HW and HR: DIGESTi (R210, R213), the message window (R209, R214), reserved offsets (R215). -/
  | wrDigest (i : BitVec 3) (d : Word)
  | rdDigest (i : BitVec 3)
  | wrMsgwin (k : BitVec 30) (d : Word)
  | rdMsgwin (k : BitVec 30)
  | wrReserved (a : BitVec 30) (d : Word)
  | rdReserved (a : BitVec 30)
  /- ES: the engine step each phase code selects (R88, R89). -/
  | esIdle
  | esPad
  | esLoad
  | esSched
  | esCinit
  | esRound
  | esFold
  | esDone
  | esError
  | esReserved9
  | esReserved10
  | esReserved11
  | esReserved12
  | esReserved13
  | esReserved14
  | esReserved15
  deriving DecidableEq, Repr

/-- A host transaction as the bus carries it: the direction signal, which is no part of the word (R80), and the 64-bit
word. -/
inductive Transaction where
  | write (word : TxWord)
  | read (word : TxWord)
  deriving DecidableEq, Repr

/-- What a decoder is given (R80): a bus transaction, or the 4-bit PHASE register when the engine takes a step. -/
inductive Encoded where
  | host (x : Transaction)
  | engine (phase : BitVec 4)
  deriving DecidableEq, Repr

/-- One atomic event of an execution (20_memory.md R60): a host transaction, an engine step, or the reset input
(70_reset_and_hazards.md R270; 92_eei_decisions.md D24). -/
inductive Event where
  | host (x : Transaction)
  | engine
  | reset
  deriving DecidableEq, Repr

/-- The nine phases PHASE may hold (R88). -/
inductive Phase where
  | idle
  | pad
  | load
  | sched
  | cinit
  | round
  | fold
  | done
  | error
  deriving DecidableEq, Repr

/-- The named error codes (R87). -/
inductive ErrCode where
  | noError
  | invalidInputType
  | inputTooLarge
  | bufferOverrun
  | badCommand
  | internalInvariant
  deriving DecidableEq, Repr

/-- Where an offset leads, by the decode order of R83. -/
inductive Target where
  | misaligned (low : BitVec 2) (a : BitVec 30)
  | cmd
  | status
  | msgLenLo
  | msgLenHi
  | digest (i : BitVec 3)
  | msgwin (k : BitVec 30)
  | reserved (a : BitVec 30)
  deriving DecidableEq, Repr

end Sys2Proof
end

