-- ==== Sys2Proof/Config.lean ====
section
/-! DEFINITION. What an implementation fixes (00_scope.md R7) and the free values of the spec
(93_implementation_defined.md section 1). The buffer capacity MSG_CAP is a parameter held in `State.msgCap`, so that
every statement is about every capacity; only its legal range stands here. -/

namespace Sys2Proof

/-- The range R7 gives MSG_CAP: a multiple of 4 with 4 <= MSG_CAP <= 0xFFFF_F000. -/
abbrev Config.legalMsgCap (cap : Nat) : Prop :=
  cap % 4 = 0 ∧ 4 ≤ cap ∧ cap ≤ 0xFFFFF000

/-- The capacity of the machine `State.reset` describes. DESIGN CHOICE (log entry 1): the spec leaves MSG_CAP open, and
95_test_vectors.md takes 4096 unless it says otherwise. -/
def Config.resetMsgCap : Nat := 4096

/-- `CORE_BASE`, the platform's address of offset 0 (20_memory.md R58). Open, and no rule depends on it (log entry 2). -/
opaque Config.coreBase : Nat

/-- The platform address of a host offset: CORE_BASE plus the offset (R58, "the base address at which a platform places
this offset space"). -/
def Config.platformAddress (offset : Word) : Nat := Config.coreBase + offset.toNat

/-- A draw: "any value" (93_implementation_defined.md U1, U3). The n-th draw of a run has no value that anything in the
model can find out (log entry 7). -/
opaque Config.draw : Nat → BitVec 64

end Sys2Proof
end

