-- ==== Sys2Proof/WellFormed.lean ====
section
/-! DEFINITION. When an `Instr` term is one a decoder can give: the operand ranges of spec/opcode_table.json, for a core
whose buffer holds `cap` bytes. -/

namespace Sys2Proof

/-- The reserved aligned offsets `4 * a` (20_memory.md R58; row wr.reserved): 0x10..0x1C, 0x40..0xFFC, and
0x1000 + MSG_CAP and above. -/
abbrev Instr.reservedOffset (cap : Nat) (a : BitVec 30) : Prop :=
  (0x10 ≤ 4 * a.toNat ∧ 4 * a.toNat ≤ 0x1C) ∨
  (0x40 ≤ 4 * a.toNat ∧ 4 * a.toNat ≤ 0xFFC) ∨
  0x1000 + cap ≤ 4 * a.toNat

/-- The window words: 0 <= 4k < MSG_CAP (44_host_interface.md R209, R214). -/
abbrev Instr.windowWord (cap : Nat) (k : BitVec 30) : Prop :=
  4 * k.toNat < cap

/-- A term is well formed when its operands are in the ranges its row gives: an illegal command is neither NOP nor START
(R205), a window word lies in the buffer, a reserved offset is reserved. Every other operand value is admitted. -/
def Instr.wf (cap : Nat) (i : Instr) : Bool :=
  match i with
  | .cmdIllegal d => decide (d ≠ 0 ∧ d ≠ 1)
  | .wrMsgwin k _ => decide (Instr.windowWord cap k)
  | .rdMsgwin k => decide (Instr.windowWord cap k)
  | .wrReserved a _ => decide (Instr.reservedOffset cap a)
  | .rdReserved a => decide (Instr.reservedOffset cap a)
  | .wrMisaligned01 _ _ | .rdMisaligned01 _ | .wrMisaligned10 _ _ | .rdMisaligned10 _
  | .wrMisaligned11 _ _ | .rdMisaligned11 _ | .nop | .start | .cmdBusy _ | .rdCmd
  | .wrStatus _ | .rdStatus | .wrMsgLenLo _ | .wrMsgLenHi _ | .rdMsgLenLo | .rdMsgLenHi
  | .wrDigest _ _ | .rdDigest _
  | .esIdle | .esPad | .esLoad | .esSched | .esCinit | .esRound | .esFold | .esDone | .esError
  | .esReserved9 | .esReserved10 | .esReserved11 | .esReserved12 | .esReserved13
  | .esReserved14 | .esReserved15 => true

/-- The condition column of the CMD rows: cmd.busy is what a CMD write is while BUSY = 1, and nop, start and cmd.illegal
while BUSY = 0 (R201). No other row depends on BUSY. -/
def Instr.fitsBusy (busy : Bool) (i : Instr) : Bool :=
  match i with
  | .cmdBusy _ => busy
  | .nop | .start | .cmdIllegal _ => !busy
  | .wrMisaligned01 _ _ | .rdMisaligned01 _ | .wrMisaligned10 _ _ | .rdMisaligned10 _
  | .wrMisaligned11 _ _ | .rdMisaligned11 _ | .rdCmd
  | .wrStatus _ | .rdStatus | .wrMsgLenLo _ | .wrMsgLenHi _ | .rdMsgLenLo | .rdMsgLenHi
  | .wrDigest _ _ | .rdDigest _ | .wrMsgwin _ _ | .rdMsgwin _ | .wrReserved _ _ | .rdReserved _
  | .esIdle | .esPad | .esLoad | .esSched | .esCinit | .esRound | .esFold | .esDone | .esError
  | .esReserved9 | .esReserved10 | .esReserved11 | .esReserved12 | .esReserved13
  | .esReserved14 | .esReserved15 => true

end Sys2Proof
end

