-- ==== Sys2Proof/Decode.lean ====
section
/-! DEFINITION. The encodings of 30_encoding.md: phase and error codes (R87, R88), the offset decode order (R83), the
command decode (R85), the decoder of the three formats (R80), and the encoder. The decoder gives every transaction word
and every phase code a meaning (R90: reserved spaces have defined behaviour), so the only thing it rejects is a bit
string that is no word of any format, by name. -/

namespace Sys2Proof

/-- The code PHASE[3:0] holds (R88). -/
def Phase.code : Phase → BitVec 4
  | .idle => 0
  | .pad => 1
  | .load => 2
  | .sched => 3
  | .cinit => 4
  | .round => 5
  | .fold => 6
  | .done => 7
  | .error => 8

/-- The code ERR[3:0] holds (R87). -/
def ErrCode.code : ErrCode → BitVec 4
  | .noError => 0
  | .invalidInputType => 1
  | .inputTooLarge => 2
  | .bufferOverrun => 3
  | .badCommand => 4
  | .internalInvariant => 5

/-- A, the byte offset: bits 63:32 (R81). -/
def TxWord.addr (word : TxWord) : Word := word.extractLsb' 32 32

/-- D, the write data: bits 31:0 (R81). -/
def TxWord.data (word : TxWord) : Word := word.extractLsb' 0 32

/-- The word `A, D` (R80). -/
def TxWord.mk (a d : Word) : TxWord := a ++ d

/-- The decode order of an offset (R83): the first test that matches decides. -/
def classify (cap : Nat) (a : Word) : Target :=
  if a.extractLsb' 0 2 ≠ 0 then .misaligned (a.extractLsb' 0 2) (a.extractLsb' 2 30)
  else if a = 0x00000000 then .cmd
  else if a = 0x00000004 then .status
  else if a = 0x00000008 then .msgLenLo
  else if a = 0x0000000C then .msgLenHi
  else if 0x20 ≤ a.toNat ∧ a.toNat ≤ 0x3C then .digest ((a - 0x20).extractLsb' 2 3)
  else if 0x1000 ≤ a.toNat ∧ a.toNat < 0x1000 + cap then .msgwin ((a - 0x1000).extractLsb' 2 30)
  else .reserved (a.extractLsb' 2 30)

/-- A CMD write (R85, R201): dropped before decode while busy; otherwise the full 32-bit value is decoded. -/
def decodeCommand (busy : Bool) (d : Word) : Instr :=
  if busy then .cmdBusy d
  else if d = 0x00000000 then .nop
  else if d = 0x00000001 then .start
  else .cmdIllegal d

/-- Format HW (R80, R83). -/
def decodeWrite (cap : Nat) (busy : Bool) (word : TxWord) : Instr :=
  match classify cap (TxWord.addr word) with
  | .misaligned low a =>
    if low = 1 then .wrMisaligned01 a (TxWord.data word)
    else if low = 2 then .wrMisaligned10 a (TxWord.data word)
    else .wrMisaligned11 a (TxWord.data word)
  | .cmd => decodeCommand busy (TxWord.data word)
  | .status => .wrStatus (TxWord.data word)
  | .msgLenLo => .wrMsgLenLo (TxWord.data word)
  | .msgLenHi => .wrMsgLenHi (TxWord.data word)
  | .digest i => .wrDigest i (TxWord.data word)
  | .msgwin k => .wrMsgwin k (TxWord.data word)
  | .reserved a => .wrReserved a (TxWord.data word)

/-- Format HR (R80: bits 31:0 are ignored; R83). -/
def decodeRead (cap : Nat) (word : TxWord) : Instr :=
  match classify cap (TxWord.addr word) with
  | .misaligned low a =>
    if low = 1 then .rdMisaligned01 a
    else if low = 2 then .rdMisaligned10 a
    else .rdMisaligned11 a
  | .cmd => .rdCmd
  | .status => .rdStatus
  | .msgLenLo => .rdMsgLenLo
  | .msgLenHi => .rdMsgLenHi
  | .digest i => .rdDigest i
  | .msgwin k => .rdMsgwin k
  | .reserved a => .rdReserved a

/-- A host transaction, told apart by the bus direction (R80). -/
def decodeHost (cap : Nat) (busy : Bool) : Transaction → Instr
  | .write word => decodeWrite cap busy word
  | .read word => decodeRead cap word

/-- Format ES: the engine step PHASE selects (R88, R89). -/
def decodeEngine (phase : BitVec 4) : Instr :=
  if phase = 0 then .esIdle
  else if phase = 1 then .esPad
  else if phase = 2 then .esLoad
  else if phase = 3 then .esSched
  else if phase = 4 then .esCinit
  else if phase = 5 then .esRound
  else if phase = 6 then .esFold
  else if phase = 7 then .esDone
  else if phase = 8 then .esError
  else if phase = 9 then .esReserved9
  else if phase = 10 then .esReserved10
  else if phase = 11 then .esReserved11
  else if phase = 12 then .esReserved12
  else if phase = 13 then .esReserved13
  else if phase = 14 then .esReserved14
  else .esReserved15

/-- The decoder of the three formats. `cap` is MSG_CAP (R83 case 7) and `busy` is BUSY (R85). -/
def decode (cap : Nat) (busy : Bool) : Encoded → Instr
  | .host x => decodeHost cap busy x
  | .engine phase => decodeEngine phase

/-! ## Bit strings -/

/-- Why a bit string is no instruction of the core. -/
inductive DecodeReject where
  /-- Its length is that of no format of R80. -/
  | badLength (nbits : Nat)
  /-- It has a 1 above the bits of its format. -/
  | excessBits (nbits : Nat)
  deriving DecidableEq, Repr

/-- A bit string of `nbits` bits with value `w`, read as one of the three formats (log entry 15): 4 or 8 bits are an ES
word (the 4-bit PHASE, R80), 64 bits an HW word, and 72 bits a bus transaction whose bit 64 is the direction signal
(0 write, 1 read), which R80 keeps out of the word itself. -/
def encodedOfBits (nbits w : Nat) : Except DecodeReject Encoded :=
  if nbits = 4 ∨ nbits = 8 then
    if w < 16 then .ok (.engine (BitVec.ofNat 4 w)) else .error (.excessBits nbits)
  else if nbits = 64 then
    if w < 2 ^ 64 then .ok (.host (.write (BitVec.ofNat 64 w))) else .error (.excessBits nbits)
  else if nbits = 72 then
    if w < 2 ^ 64 then .ok (.host (.write (BitVec.ofNat 64 w)))
    else if w < 2 ^ 65 then .ok (.host (.read (BitVec.ofNat 64 w)))
    else .error (.excessBits nbits)
  else .error (.badLength nbits)

/-- The decoder on a bit string: total, and it rejects by name. -/
def decodeBits (cap : Nat) (busy : Bool) (nbits w : Nat) : Except DecodeReject Instr :=
  match encodedOfBits nbits w with
  | .ok e => .ok (decode cap busy e)
  | .error r => .error r

/-- The instruction the decoder reads from a table word in the state right after reset: not busy, with that state's
MSG_CAP. -/
def decodeTableWord (nbits w : Nat) : Option Instr :=
  match decodeBits Config.resetMsgCap false nbits w with
  | .ok i => some i
  | .error _ => none

/-! ## The encoder -/

/-- The offset whose bits 31:2 are `a` and whose bits 1:0 are `low` (R81). -/
def offsetOf (a : BitVec 30) (low : BitVec 2) : Word := a ++ low

/-- The offset of DIGESTi, 0x20 + 4i (R82): match 0x00000020 under mask 0xFFFFFFE3, with i in A[4:2]. -/
def digestOffset (i : BitVec 3) : Word := (1 : BitVec 27) ++ i ++ (0 : BitVec 2)

/-- The offset of MSGWIN[k], 0x1000 + 4k (R82). -/
def windowOffset (k : BitVec 30) : Word := 0x1000 + offsetOf k 0

/-- An HW word. -/
def encodeWrite (a d : Word) : Encoded := .host (.write (TxWord.mk a d))

/-- An HR word, with bits 31:0 written as 0 (R80). -/
def encodeRead (a : Word) : Encoded := .host (.read (TxWord.mk a 0))

/-- The encoder, from the match and mask columns of spec/opcode_table.json. -/
def encode : Instr → Encoded
  | .wrMisaligned01 a d => encodeWrite (offsetOf a 1) d
  | .rdMisaligned01 a => encodeRead (offsetOf a 1)
  | .wrMisaligned10 a d => encodeWrite (offsetOf a 2) d
  | .rdMisaligned10 a => encodeRead (offsetOf a 2)
  | .wrMisaligned11 a d => encodeWrite (offsetOf a 3) d
  | .rdMisaligned11 a => encodeRead (offsetOf a 3)
  | .nop => encodeWrite 0x00000000 0x00000000
  | .start => encodeWrite 0x00000000 0x00000001
  | .cmdIllegal d => encodeWrite 0x00000000 d
  | .cmdBusy d => encodeWrite 0x00000000 d
  | .rdCmd => encodeRead 0x00000000
  | .wrStatus d => encodeWrite 0x00000004 d
  | .rdStatus => encodeRead 0x00000004
  | .wrMsgLenLo d => encodeWrite 0x00000008 d
  | .wrMsgLenHi d => encodeWrite 0x0000000C d
  | .rdMsgLenLo => encodeRead 0x00000008
  | .rdMsgLenHi => encodeRead 0x0000000C
  | .wrDigest i d => encodeWrite (digestOffset i) d
  | .rdDigest i => encodeRead (digestOffset i)
  | .wrMsgwin k d => encodeWrite (windowOffset k) d
  | .rdMsgwin k => encodeRead (windowOffset k)
  | .wrReserved a d => encodeWrite (offsetOf a 0) d
  | .rdReserved a => encodeRead (offsetOf a 0)
  | .esIdle => .engine 0x0
  | .esPad => .engine 0x1
  | .esLoad => .engine 0x2
  | .esSched => .engine 0x3
  | .esCinit => .engine 0x4
  | .esRound => .engine 0x5
  | .esFold => .engine 0x6
  | .esDone => .engine 0x7
  | .esError => .engine 0x8
  | .esReserved9 => .engine 0x9
  | .esReserved10 => .engine 0xA
  | .esReserved11 => .engine 0xB
  | .esReserved12 => .engine 0xC
  | .esReserved13 => .engine 0xD
  | .esReserved14 => .engine 0xE
  | .esReserved15 => .engine 0xF

/-- An encoded form with the bits the format ignores written as 0 (R80: D of an HR word). -/
def Encoded.canonical : Encoded → Encoded
  | .host (.read word) => .host (.read (TxWord.mk (TxWord.addr word) 0))
  | .host (.write word) => .host (.write word)
  | .engine phase => .engine phase

end Sys2Proof
end

