-- ==== Sys2Proof/Machine/State.lean ====
section
/-! DEFINITION. The state of the core (10_state.md), the reasons a step can stop, and the state after reset
(70_reset_and_hazards.md R270). -/

namespace Sys2Proof.Machine

/-- Why the model stops. These are model faults (60_exceptions.md R246): no hardware error is one of them, and none is
visible in ERR. -/
inductive Fault where
  /-- UNWRITTEN_READ(j): raised by the LOAD step when PadByte reads message byte `j`, which no host write has covered since
  reset (20_memory.md R56). Safe: a part hashes whatever its RAM holds. -/
  | unwrittenRead (j : Nat)
  /-- RESERVED_PHASE: raised by an engine step or a host transaction while PHASE holds 9..15 (30_encoding.md R89). Safe: unreachable from reset. -/
  | reservedPhase
  /-- INVARIANT: raised by LOAD, SCHED and ROUND when BLK or T is out of the range their rule gives (40_padder.md R118,
  60_exceptions.md R243). Safe: unreachable from reset. -/
  | invariant
  deriving DecidableEq, Repr

/-- Why the model gives an instruction no meaning. -/
inductive Refusal where
  /-- Raised by an arm of `exec` that has no meaning yet; no arm of this model does. Safe. -/
  | notModelled (mnemonic : String)
  deriving DecidableEq, Repr

/-- The written bytes of MSGMEM: (index, byte) pairs with strictly rising indexes. An index that is not listed is
*unwritten* (20_memory.md R56). -/
abbrev Memory := List Host.Cell

/-- The canonical form of `Memory`: indexes strictly rising. No listed entry can equal what an unlisted index reads as,
because that is no value. -/
abbrev Memory.wf (m : Memory) : Prop := m.Pairwise (fun x y => x.1 < y.1)

/-- The state. The first ten fields are the spec's (10_state.md section 6), `msgCap` is the spec's open parameter, and the
last three are the model's own (INVENTORY.md, State). -/
structure State where
  /-- H[0..7], the hash state (R21). -/
  h : Vector Word 8
  /-- V[0..7], the working variables a..h (R22). -/
  v : Vector Word 8
  /-- W[0..63], the message schedule (R23). -/
  w : Vector Word 64
  /-- T, the schedule and round counter (R24). -/
  t : BitVec 7
  /-- BLK, the index of the block being processed (R25). -/
  blk : BitVec 64
  /-- NBLK, the number of blocks of the padded message (R25). -/
  nblk : BitVec 64
  /-- PHASE, the sequencing register (R28). -/
  phase : BitVec 4
  /-- ERR, the error code (R29). -/
  err : BitVec 4
  /-- MSG_LEN, in bytes (R30). -/
  msgLen : BitVec 64
  /-- MSGMEM, its written bytes (R37). -/
  mem : Memory
  /-- MSG_CAP, the capacity of MSGMEM in bytes (00_scope.md R7; 92_eei_decisions.md D5). No step writes it. -/
  msgCap : Nat
  /-- The events still to come, in the execution's total order (20_memory.md R60). The model's own field. -/
  inputs : List Event
  /-- The value the most recent host read returned (30_encoding.md R80). The model's own field. -/
  rdata : Word
  /-- How many free values have been drawn (93_implementation_defined.md U1, U3). The model's own field. -/
  draws : Nat
  deriving DecidableEq, Repr

/-- The state right after reset (R270). H, V, W, T, BLK and NBLK are unspecified there: zero is a DESIGN CHOICE (log entry
5). MSG_CAP is a DESIGN CHOICE (log entry 1), and so are the model's own fields (log entries 3, 4 and 7). -/
def State.reset : State where
  h := Vector.replicate 8 0
  v := Vector.replicate 8 0
  w := Vector.replicate 64 0
  t := 0
  blk := 0
  nblk := 0
  phase := Phase.idle.code
  err := ErrCode.noError.code
  msgLen := 0
  mem := []
  msgCap := Config.resetMsgCap
  inputs := []
  rdata := 0
  draws := 0

/-! The updates the operations are built from. -/

/-- The events that remain once some are consumed. -/
def State.withInputs (s : State) (es : List Event) : State := { s with inputs := es }

/-- The value a host read returns. -/
def State.withRdata (s : State) (x : Word) : State := { s with rdata := x }

/-- `phase <- P` (00_scope.md R11). -/
def State.withPhase (s : State) (p : Phase) : State := { s with phase := p.code }

/-- `ERR <- code`. -/
def State.withErr (s : State) (e : ErrCode) : State := { s with err := e.code }

/-- `MSG_LEN <- v`. -/
def State.withMsgLen (s : State) (x : BitVec 64) : State := { s with msgLen := x }

/-- A new MSGMEM. -/
def State.withMem (s : State) (m : Memory) : State := { s with mem := m }

/-- `n` more free values drawn. -/
def State.drawn (s : State) (n : Nat) : State := { s with draws := s.draws + n }

/-- What the step does next: run an instruction from a state, or take the reset input. -/
inductive Fetched where
  | run (i : Instr) (s : State)
  | resetInput (s : State)
  deriving DecidableEq, Repr

end Sys2Proof.Machine
end

