-- ==== Sys2Proof/Machine/Mixing.lean ====
section
/-! DEFINITION. The pure bit functions of the Scheduler (41_scheduler.md R140 to R143) and of the Compressor
(42_compressor.md R163 to R166). -/

namespace Sys2Proof.Machine

/-- The 32-bit right rotation (R140), for n in 0..31. -/
def rotr (x : Word) (n : Nat) : Word :=
  if n = 0 then x else (x >>> n) ||| (x <<< (32 - n))

/-- The logical right shift `x >> n` (R141). -/
def shr (x : Word) (n : Nat) : Word := x >>> n

/-- σ0 (R142). -/
def smallSigma0 (x : Word) : Word := rotr x 7 ^^^ rotr x 18 ^^^ shr x 3

/-- σ1 (R143). -/
def smallSigma1 (x : Word) : Word := rotr x 17 ^^^ rotr x 19 ^^^ shr x 10

/-- Σ0 (R163). -/
def bigSigma0 (x : Word) : Word := rotr x 2 ^^^ rotr x 13 ^^^ rotr x 22

/-- Σ1 (R164). -/
def bigSigma1 (x : Word) : Word := rotr x 6 ^^^ rotr x 11 ^^^ rotr x 25

/-- Ch (R165). -/
def ch (x y z : Word) : Word := (x &&& y) ^^^ (~~~x &&& z)

/-- Maj (R166). -/
def maj (x y z : Word) : Word := (x &&& y) ^^^ (x &&& z) ^^^ (y &&& z)

/-- The schedule recurrence for one word (R145), from the words 2, 7, 15 and 16 places back. -/
def scheduleWord (w2 w7 w15 w16 : Word) : Word :=
  smallSigma1 w2 + w7 + smallSigma0 w15 + w16

/-- T1 of a round (R160, R171). -/
def roundT1 (e f g h k w : Word) : Word := h + bigSigma1 e + ch e f g + k + w

/-- T2 of a round (R160, R171). -/
def roundT2 (a b c : Word) : Word := bigSigma0 a + maj a b c

end Sys2Proof.Machine
end

