-- ==== Sys2Proof/Machine/Flags.lean ====
section
/-! DEFINITION. The core has no status flags or condition codes (10_state.md R35). The one derived status bit is BUSY,
which is a function of PHASE (R32, 30_encoding.md R86). Beside it stands the test for the reserved phase codes (R89). -/

namespace Sys2Proof.Machine

/-- BUSY: 1 exactly when PHASE is PAD, LOAD, SCHED, CINIT, ROUND or FOLD, codes 1..6 (R86). -/
def busyPhase (phase : BitVec 4) : Bool :=
  phase == Phase.pad.code || phase == Phase.load.code || phase == Phase.sched.code ||
  phase == Phase.cinit.code || phase == Phase.round.code || phase == Phase.fold.code

/-- The reserved phase codes 9..15 (R89). -/
def reservedPhase (phase : BitVec 4) : Bool := decide (9 ≤ phase.toNat)

/-- BUSY of a state. -/
def State.busy (s : State) : Bool := busyPhase s.phase

end Sys2Proof.Machine
end

