-- ==== Sys2Proof/Machine/Operands.lean ====
section
/-! DEFINITION. How operands are read: bytes and words (00_scope.md R10), message bytes and padded-message bytes
(20_memory.md R51, 40_padder.md R113), the read-only views STATUS and DIGESTi (10_state.md R32, R33), and the digest as
bytes (43_digest.md R191, R192). -/

namespace Sys2Proof.Machine

/-- `BE32(b0, b1, b2, b3)`: the first byte is the most significant (R10). -/
def be32 (b0 b1 b2 b3 : Byte) : Word := b0 ++ b1 ++ b2 ++ b3

/-- `BYTE_k(w) = w[31-8k : 24-8k]`, for k in 0..3 (R10). -/
def byteOf (k : Nat) (w : Word) : Byte := w.extractLsb' (24 - 8 * k) 8

/-- Byte `j` of MSGMEM, or no value while it is unwritten (R56). -/
def Memory.read : Memory → Nat → Option Byte
  | [], _ => none
  | (x, b) :: m, j => if j = x then some b else Memory.read m j

/-- `MsgRead(j)` (R51): the engine's read of a message byte. An unwritten byte has no value, and the error names it (R56). -/
def State.msgRead (s : State) (j : Nat) : Except Nat Byte :=
  match s.mem.read j with
  | some b => .ok b
  | none => .error j

/-- P, the length in bytes of the padded message (R113). -/
def State.paddedLen (s : State) : Nat := 64 * s.nblk.toNat

/-- `PadByte(j)`, byte `j` of the padded message, for 0 <= j < P (R113). -/
def State.padByte (s : State) (j : Nat) : Except Nat Byte :=
  if j < s.msgLen.toNat then s.msgRead j
  else if j = s.msgLen.toNat then .ok 0x80
  else if j < s.paddedLen - 8 then .ok 0x00
  else .ok (BitVec.ofNat 8 ((8 * s.msgLen.toNat) >>> (8 * (s.paddedLen - 1 - j))))

/-- The big-endian word of the padded message at byte `j` (R117). -/
def State.padWord (s : State) (j : Nat) : Except Nat Word :=
  match s.padByte j with
  | .error e => .error e
  | .ok b0 =>
    match s.padByte (j + 1) with
    | .error e => .error e
    | .ok b1 =>
      match s.padByte (j + 2) with
      | .error e => .error e
      | .ok b2 =>
        match s.padByte (j + 3) with
        | .error e => .error e
        | .ok b3 => .ok (be32 b0 b1 b2 b3)

/-- `n` words of the padded message from byte `j` on, read in increasing order (R117). An unwritten message byte makes the
whole an error that names the first of them (log entry 8). -/
def State.padWords (s : State) : Nat → Nat → Except Nat (List Word)
  | _, 0 => .ok []
  | j, n + 1 =>
    match s.padWord j with
    | .error e => .error e
    | .ok x =>
      match s.padWords (j + 4) n with
      | .error e => .error e
      | .ok xs => .ok (x :: xs)

/-- The value a STATUS read returns (R86). -/
def statusWord (s : State) : Word :=
  (s.err ++ (0 : BitVec 3) ++ BitVec.ofBool s.busy ++ s.phase : BitVec 12).setWidth 32

/-- MSG_LEN_LO, MSG_LEN[31:0] (R84, R212). -/
def msgLenLo (s : State) : Word := s.msgLen.extractLsb' 0 32

/-- MSG_LEN_HI, MSG_LEN[63:32] (R84, R216). -/
def msgLenHi (s : State) : Word := s.msgLen.extractLsb' 32 32

/-- The value a DIGESTi read returns: H[i] in DONE, else 0 (R213). -/
def digestWord (s : State) (i : BitVec 3) : Word :=
  if s.phase = Phase.done.code then s.h[i.toNat]'i.isLt else 0

/-- Digest byte n, for 0 <= n <= 31 (R192). -/
def digestByte (s : State) (n : Nat) : Byte :=
  byteOf (n % 4) (digestWord s (BitVec.ofNat 3 (n / 4)))

/-- The 32 digest bytes as the host sees them (R191, R192). -/
def digestBytes (s : State) : List Byte := (List.range 32).map (digestByte s)

end Sys2Proof.Machine
end

