-- ==== Sys2Proof/Machine/Ops.lean ====
section
/-! DEFINITION. The shared operations: writes of MSGMEM (20_memory.md R52, R54), free values of unwritten bytes (R56), the
register updates of the engine steps, THE ERROR ENTRY (60_exceptions.md R250) with the way out of it (R251, R203), and the
reset input (70_reset_and_hazards.md R270). -/

namespace Sys2Proof.Machine

/-! ## MSGMEM -/

/-- `MemWrite(j, 1, b)`: the byte becomes written. The list stays sorted. -/
def Memory.write : Memory → Nat → Byte → Memory
  | [], j, b => [(j, b)]
  | (x, c) :: m, j, b =>
    if j < x then (j, b) :: (x, c) :: m
    else if j = x then (x, b) :: m
    else (x, c) :: Memory.write m j b

/-- The host write of window word k: four byte writes in big-endian lanes (R54, R209). -/
def Memory.writeWord (m : Memory) (k : Nat) (d : Word) : Memory :=
  (((m.write (4 * k) (byteOf 0 d)).write (4 * k + 1) (byteOf 1 d)).write (4 * k + 2) (byteOf 2 d)).write
    (4 * k + 3) (byteOf 3 d)

/-- The host's read of one byte: its value when written, else a draw, which counts as one more draw (R56; log entry 7). -/
def State.hostReadByte (s : State) (j : Nat) : Byte × State :=
  match s.mem.read j with
  | some b => (b, s)
  | none => ((Config.draw s.draws).setWidth 8, s.drawn 1)

/-- The host's read of window word k, with the state after its draws (R54, R214). -/
def State.hostReadWord (s : State) (k : Nat) : Word × State :=
  let r0 := s.hostReadByte (4 * k)
  let r1 := r0.2.hostReadByte (4 * k + 1)
  let r2 := r1.2.hostReadByte (4 * k + 2)
  let r3 := r2.2.hostReadByte (4 * k + 3)
  (be32 r0.1 r1.1 r2.1 r3.1, r3.2)

/-! ## Error entry and the way out -/

/-- `raise Error(code)` (R250): ERR and PHASE are written and nothing else. Nothing is saved, and there is no handler. -/
def raiseError (code : ErrCode) (s : State) : State :=
  (s.withErr code).withPhase .error

/-- An accepted START (R203): it clears ERR and begins a job. It is also the way out of ERROR (R251); no state is
restored. -/
def beginJob (s : State) : State :=
  (s.withErr .noError).withPhase .pad

/-! ## Host transactions -/

/-- A write with no effect (R55, R204, R210, R215). -/
def noEffect (s : State) : State := s

/-- A host read that returns `x` and has no side effect (R57). -/
def readReturns (x : Word) (s : State) : State := s.withRdata x

/-- An input write: dropped while busy (R207, R208, R209; 20_memory.md R61). -/
def unlessBusy (update : State → State) (s : State) : State :=
  if s.busy then noEffect s else update s

/-- MSG_LEN[31:0] <- D (R207). -/
def setMsgLenLo (d : Word) (s : State) : State := s.withMsgLen (msgLenHi s ++ d)

/-- MSG_LEN[63:32] <- D (R208). -/
def setMsgLenHi (d : Word) (s : State) : State := s.withMsgLen (d ++ msgLenLo s)

/-! ## Engine register updates -/

/-- `NBLK = (L + 72) div 64` (40_padder.md R112). -/
def blockCount (len : Nat) : Nat := (len + 72) / 64

/-- The successful exit of PAD (R110): NBLK, BLK and H (R111). -/
def beginBlocks (s : State) : State :=
  { s with nblk := BitVec.ofNat 64 (blockCount s.msgLen.toNat), blk := 0, h := ivRom, phase := Phase.load.code }

/-- W[k] <- xs[k] for the words given; the other entries are kept (R117). -/
def loadWords (xs : List Word) (w : Vector Word 64) : Vector Word 64 :=
  Vector.ofFn fun i : Fin 64 => (xs[i.val]?).getD w[i]

/-- The schedule word with index t, from the words before it (41_scheduler.md R145, R146). -/
def nextScheduleWord (w : Vector Word 64) (t : Nat) (ht : 16 ≤ t ∧ t < 64) : Word :=
  scheduleWord (w[t - 2]'(by omega)) (w[t - 7]'(by omega)) (w[t - 15]'(by omega)) (w[t - 16]'(by omega))

/-- One round over the working variables a..h = V[0..7], all read before any is written (42_compressor.md R171). -/
def roundVars (v : Vector Word 8) (k w : Word) : Vector Word 8 :=
  let t1 := roundT1 v[4] v[5] v[6] v[7] k w
  let t2 := roundT2 v[0] v[1] v[2]
  #v[t1 + t2, v[0], v[1], v[2], v[3] + t1, v[4], v[5], v[6]]

/-- H[i] <- H[i] + V[i], mod 2^32 (R172). -/
def foldVars (h v : Vector Word 8) : Vector Word 8 :=
  Vector.ofFn fun i : Fin 8 => h[i] + v[i]

/-- `T <- t + 1`, and the phase that follows: `last` when t + 1 = 64, else `again` (R146, R171). -/
def countStep (again last : Phase) (s : State) : State :=
  { s with t := s.t + 1, phase := if s.t.toNat + 1 = 64 then last.code else again.code }

/-! ## Reset -/

/-- The reset input (R270): PHASE, ERR and MSG_LEN take their reset values, every message byte becomes unwritten, and H, V,
W, T, BLK and NBLK are unspecified: each is a free value (log entry 6). MSG_CAP is a parameter and stays. The events still
to come, the host's last read value and the draws already made are not the core's, and stay. -/
def resetInput (s : State) : State :=
  { s with
    phase := Phase.idle.code
    err := ErrCode.noError.code
    msgLen := 0
    mem := []
    h := Vector.ofFn fun i : Fin 8 => (Config.draw (s.draws + i.val)).setWidth 32
    v := Vector.ofFn fun i : Fin 8 => (Config.draw (s.draws + 8 + i.val)).setWidth 32
    w := Vector.ofFn fun i : Fin 64 => (Config.draw (s.draws + 16 + i.val)).setWidth 32
    t := (Config.draw (s.draws + 80)).setWidth 7
    blk := Config.draw (s.draws + 81)
    nblk := Config.draw (s.draws + 82)
    draws := s.draws + 83 }

end Sys2Proof.Machine
end

