-- ==== Sys2Proof/Machine/Compressor.lean ====
section
/-! DEFINITION. The CINIT, ROUND and FOLD steps (42_compressor.md R170 to R172). -/

namespace Sys2Proof.Machine

/-- CINIT step (R170). -/
def execEsCinit (s : State) : Host.Outcome State Fault Refusal :=
  .next { s with v := s.h, t := 0, phase := Phase.round.code }

/-- ROUND step (R171): round T, with K[T] and W[T]. T above 63, which no reachable state has (40_padder.md R118), names no
round and is the model fault INVARIANT (60_exceptions.md R243; log entry 9). -/
def execEsRound (s : State) : Host.Outcome State Fault Refusal :=
  if ht : s.t.toNat < 64 then
    .next (countStep .round .fold { s with v := roundVars s.v (kRom[s.t.toNat]'ht) (s.w[s.t.toNat]'ht) })
  else .fault .invariant

/-- FOLD step (R172): the fold, and the next block or DONE. BLK + 1 uses the value before the step. -/
def execEsFold (s : State) : Host.Outcome State Fault Refusal :=
  .next { s with
    h := foldVars s.h s.v
    blk := s.blk + 1
    phase := if s.blk.toNat + 1 = s.nblk.toNat then Phase.done.code else Phase.load.code }

end Sys2Proof.Machine
end

