-- ==== Sys2Proof/Machine/HostRead.lean ====
section
/-! DEFINITION. The meanings of the host reads (44_host_interface.md R206, R211 to R216; 20_memory.md R55). No read has a
side effect (R57): a read changes the returned value and, for unwritten bytes, the count of draws. -/

namespace Sys2Proof.Machine

/-- rd.misaligned.01 returns 0 (R55). -/
def execRdMisaligned01 (_a : BitVec 30) (s : State) : Host.Outcome State Fault Refusal := .next (readReturns 0 s)

/-- rd.misaligned.10 returns 0 (R55). -/
def execRdMisaligned10 (_a : BitVec 30) (s : State) : Host.Outcome State Fault Refusal := .next (readReturns 0 s)

/-- rd.misaligned.11 returns 0 (R55). -/
def execRdMisaligned11 (_a : BitVec 30) (s : State) : Host.Outcome State Fault Refusal := .next (readReturns 0 s)

/-- CMD has no storage and reads 0 (R206). -/
def execRdCmd (s : State) : Host.Outcome State Fault Refusal := .next (readReturns 0 s)

/-- STATUS read (R211). -/
def execRdStatus (s : State) : Host.Outcome State Fault Refusal := .next (readReturns (statusWord s) s)

/-- MSG_LEN_LO read (R212). -/
def execRdMsgLenLo (s : State) : Host.Outcome State Fault Refusal := .next (readReturns (msgLenLo s) s)

/-- MSG_LEN_HI read (R216). -/
def execRdMsgLenHi (s : State) : Host.Outcome State Fault Refusal := .next (readReturns (msgLenHi s) s)

/-- DIGESTi read (R213). -/
def execRdDigest (i : BitVec 3) (s : State) : Host.Outcome State Fault Refusal := .next (readReturns (digestWord s i) s)

/-- Message window read (R214): a draw for each unwritten byte (R56). -/
def execRdMsgwin (k : BitVec 30) (s : State) : Host.Outcome State Fault Refusal :=
  .next (readReturns (s.hostReadWord k.toNat).1 (s.hostReadWord k.toNat).2)

/-- A reserved offset reads 0 (R215). -/
def execRdReserved (_a : BitVec 30) (s : State) : Host.Outcome State Fault Refusal := .next (readReturns 0 s)

end Sys2Proof.Machine
end

