-- ==== Sys2Proof/Machine/HostWrite.lean ====
section
/-! DEFINITION. The meanings of the host writes (44_host_interface.md R201 to R205, R207 to R210, R215; 20_memory.md R55).
Every one completes at once (R200). -/

namespace Sys2Proof.Machine

/-- wr.misaligned.01: no effect (R55). -/
def execWrMisaligned01 (_a : BitVec 30) (_d : Word) (s : State) : Host.Outcome State Fault Refusal := .next (noEffect s)

/-- wr.misaligned.10: no effect (R55). -/
def execWrMisaligned10 (_a : BitVec 30) (_d : Word) (s : State) : Host.Outcome State Fault Refusal := .next (noEffect s)

/-- wr.misaligned.11: no effect (R55). -/
def execWrMisaligned11 (_a : BitVec 30) (_d : Word) (s : State) : Host.Outcome State Fault Refusal := .next (noEffect s)

/-- NOP: no state changes (R202), and a CMD write while busy is dropped (R204). -/
def execNop (s : State) : Host.Outcome State Fault Refusal := .next (noEffect s)

/-- START (R203). The busy test comes first (R201): while busy the write is dropped (R204; log entry 12). -/
def execStart (s : State) : Host.Outcome State Fault Refusal := .next (unlessBusy beginJob s)

/-- An illegal command raises BAD_COMMAND (R205). The busy test comes first (R201): while busy the write is dropped (R204;
log entry 12). -/
def execCmdIllegal (_d : Word) (s : State) : Host.Outcome State Fault Refusal := .next (unlessBusy (raiseError .badCommand) s)

/-- A CMD write while busy is dropped (R204). -/
def execCmdBusy (_d : Word) (s : State) : Host.Outcome State Fault Refusal := .next (noEffect s)

/-- A write of read-only STATUS: no effect (R210). -/
def execWrStatus (_d : Word) (s : State) : Host.Outcome State Fault Refusal := .next (noEffect s)

/-- MSG_LEN_LO write (R207). -/
def execWrMsgLenLo (d : Word) (s : State) : Host.Outcome State Fault Refusal := .next (unlessBusy (setMsgLenLo d) s)

/-- MSG_LEN_HI write (R208). -/
def execWrMsgLenHi (d : Word) (s : State) : Host.Outcome State Fault Refusal := .next (unlessBusy (setMsgLenHi d) s)

/-- A write of read-only DIGESTi: no effect (R210). -/
def execWrDigest (_i : BitVec 3) (_d : Word) (s : State) : Host.Outcome State Fault Refusal := .next (noEffect s)

/-- Message window write (R209). -/
def execWrMsgwin (k : BitVec 30) (d : Word) (s : State) : Host.Outcome State Fault Refusal :=
  .next (unlessBusy (fun u => u.withMem (u.mem.writeWord k.toNat d)) s)

/-- A write to a reserved offset: no effect (R215). -/
def execWrReserved (_a : BitVec 30) (_d : Word) (s : State) : Host.Outcome State Fault Refusal := .next (noEffect s)

end Sys2Proof.Machine
end

