-- ==== Sys2Proof/Machine/Padder.lean ====
section
/-! DEFINITION. The PAD and LOAD steps (40_padder.md R110, R117). -/

namespace Sys2Proof.Machine

/-- PAD step (R110): INPUT_TOO_LARGE is tested before BUFFER_OVERRUN (60_exceptions.md R248). -/
def execEsPad (s : State) : Host.Outcome State Fault Refusal :=
  if 2 ^ 61 ≤ s.msgLen.toNat then .next (raiseError .inputTooLarge s)
  else if s.msgCap < s.msgLen.toNat then .next (raiseError .bufferOverrun s)
  else .next (beginBlocks s)

/-- LOAD step (R117): W[0..15] from block BLK of the padded message, T <- 16, PHASE <- SCHED. An unwritten message byte
faults (20_memory.md R56). PadByte has a value only below P = 64 * NBLK (R113), so BLK >= NBLK, which no reachable state
has (R118), is the model fault INVARIANT (60_exceptions.md R243; log entry 9). -/
def execEsLoad (s : State) : Host.Outcome State Fault Refusal :=
  if s.blk.toNat < s.nblk.toNat then
    match s.padWords (64 * s.blk.toNat) 16 with
    | .error j => .fault (.unwrittenRead j)
    | .ok xs => .next { s with w := loadWords xs s.w, t := 16, phase := Phase.sched.code }
  else .fault .invariant

end Sys2Proof.Machine
end

