-- ==== Sys2Proof/Machine/Quiescent.lean ====
section
/-! DEFINITION. The phase codes that select no engine step: the quiescent phases (43_digest.md R193), in which the engine
does nothing and all state is kept (60_exceptions.md R261; log entry 11), and the reserved codes (30_encoding.md R89). -/

namespace Sys2Proof.Machine

/-- IDLE: no step (R193). -/
def execEsIdle (s : State) : Host.Outcome State Fault Refusal := .next (noEffect s)

/-- DONE: no step (R193). -/
def execEsDone (s : State) : Host.Outcome State Fault Refusal := .next (noEffect s)

/-- ERROR: no step (R250, R193). -/
def execEsError (s : State) : Host.Outcome State Fault Refusal := .next (noEffect s)

/-- "A model that finds PHASE in 9..15 faults with reason RESERVED_PHASE" (R89). -/
def reservedPhaseFault (_s : State) : Host.Outcome State Fault Refusal := .fault .reservedPhase

/-- Phase code 9 (R89). -/
def execEsReserved9 (s : State) : Host.Outcome State Fault Refusal := reservedPhaseFault s

/-- Phase code 10 (R89). -/
def execEsReserved10 (s : State) : Host.Outcome State Fault Refusal := reservedPhaseFault s

/-- Phase code 11 (R89). -/
def execEsReserved11 (s : State) : Host.Outcome State Fault Refusal := reservedPhaseFault s

/-- Phase code 12 (R89). -/
def execEsReserved12 (s : State) : Host.Outcome State Fault Refusal := reservedPhaseFault s

/-- Phase code 13 (R89). -/
def execEsReserved13 (s : State) : Host.Outcome State Fault Refusal := reservedPhaseFault s

/-- Phase code 14 (R89). -/
def execEsReserved14 (s : State) : Host.Outcome State Fault Refusal := reservedPhaseFault s

/-- Phase code 15 (R89). -/
def execEsReserved15 (s : State) : Host.Outcome State Fault Refusal := reservedPhaseFault s

end Sys2Proof.Machine
end

