-- ==== Sys2Proof/Machine/Scheduler.lean ====
section
/-! DEFINITION. The SCHED step (41_scheduler.md R146). -/

namespace Sys2Proof.Machine

/-- SCHED step (R146): one schedule word. T outside 16..63, which no reachable state has (40_padder.md R118), names no
word to compute and is the model fault INVARIANT (60_exceptions.md R243; log entry 9). -/
def execEsSched (s : State) : Host.Outcome State Fault Refusal :=
  if ht : 16 ≤ s.t.toNat ∧ s.t.toNat < 64 then
    .next (countStep .sched .cinit { s with w := s.w.set s.t.toNat (nextScheduleWord s.w s.t.toNat ht) ht.2 })
  else .fault .invariant

end Sys2Proof.Machine
end

