-- ==== Sys2Proof/Machine/Dispatch.lean ====
section
/-! DEFINITION. The meaning of each row of spec/opcode_table.json, one arm each. -/

namespace Sys2Proof.Machine

def exec (i : Instr) (s : State) : Host.Outcome State Fault Refusal :=
  match i with
  | .wrMisaligned01 a d => Sys2Proof.Machine.execWrMisaligned01 a d s
  | .rdMisaligned01 a => Sys2Proof.Machine.execRdMisaligned01 a s
  | .wrMisaligned10 a d => Sys2Proof.Machine.execWrMisaligned10 a d s
  | .rdMisaligned10 a => Sys2Proof.Machine.execRdMisaligned10 a s
  | .wrMisaligned11 a d => Sys2Proof.Machine.execWrMisaligned11 a d s
  | .rdMisaligned11 a => Sys2Proof.Machine.execRdMisaligned11 a s
  | .nop => Sys2Proof.Machine.execNop s
  | .start => Sys2Proof.Machine.execStart s
  | .cmdIllegal d => Sys2Proof.Machine.execCmdIllegal d s
  | .cmdBusy d => Sys2Proof.Machine.execCmdBusy d s
  | .rdCmd => Sys2Proof.Machine.execRdCmd s
  | .wrStatus d => Sys2Proof.Machine.execWrStatus d s
  | .rdStatus => Sys2Proof.Machine.execRdStatus s
  | .wrMsgLenLo d => Sys2Proof.Machine.execWrMsgLenLo d s
  | .wrMsgLenHi d => Sys2Proof.Machine.execWrMsgLenHi d s
  | .rdMsgLenLo => Sys2Proof.Machine.execRdMsgLenLo s
  | .rdMsgLenHi => Sys2Proof.Machine.execRdMsgLenHi s
  | .wrDigest n d => Sys2Proof.Machine.execWrDigest n d s
  | .rdDigest n => Sys2Proof.Machine.execRdDigest n s
  | .wrMsgwin k d => Sys2Proof.Machine.execWrMsgwin k d s
  | .rdMsgwin k => Sys2Proof.Machine.execRdMsgwin k s
  | .wrReserved a d => Sys2Proof.Machine.execWrReserved a d s
  | .rdReserved a => Sys2Proof.Machine.execRdReserved a s
  | .esIdle => Sys2Proof.Machine.execEsIdle s
  | .esPad => Sys2Proof.Machine.execEsPad s
  | .esLoad => Sys2Proof.Machine.execEsLoad s
  | .esSched => Sys2Proof.Machine.execEsSched s
  | .esCinit => Sys2Proof.Machine.execEsCinit s
  | .esRound => Sys2Proof.Machine.execEsRound s
  | .esFold => Sys2Proof.Machine.execEsFold s
  | .esDone => Sys2Proof.Machine.execEsDone s
  | .esError => Sys2Proof.Machine.execEsError s
  | .esReserved9 => Sys2Proof.Machine.execEsReserved9 s
  | .esReserved10 => Sys2Proof.Machine.execEsReserved10 s
  | .esReserved11 => Sys2Proof.Machine.execEsReserved11 s
  | .esReserved12 => Sys2Proof.Machine.execEsReserved12 s
  | .esReserved13 => Sys2Proof.Machine.execEsReserved13 s
  | .esReserved14 => Sys2Proof.Machine.execEsReserved14 s
  | .esReserved15 => Sys2Proof.Machine.execEsReserved15 s

end Sys2Proof.Machine
end

