-- ==== Sys2Proof/Machine/Fetch.lean ====
section
/-! DEFINITION. What the step does next. The core fetches no instruction (20_memory.md R64): the next event of the total
order (R60) says whether the host, the engine or the reset input acts, and a host transaction or PHASE itself is decoded
(30_encoding.md R80). -/

namespace Sys2Proof.Machine

/-- What runs when a host transaction is next: the instruction decoded from it. A PHASE in 9..15 is found first, and then the
reserved row it selects runs, which faults ("A model that finds PHASE in 9..15 faults", R89; 60_exceptions.md R246). -/
def hostInstr (s : State) (x : Transaction) : Instr :=
  if reservedPhase s.phase then decodeEngine s.phase else decodeHost s.msgCap s.busy x

/-- The next event. `State.inputs` is the order of the events still to come, and when it is empty the host is silent and the
engine goes on: this is the weak fairness of R60 (log entry 3). The reset input takes effect in any phase
(70_reset_and_hazards.md R270; log entry 16). -/
def fetch (s : State) : Fetched :=
  match s.inputs with
  | [] => .run (decodeEngine s.phase) s
  | .engine :: es => .run (decodeEngine s.phase) (s.withInputs es)
  | .host x :: es => .run (hostInstr s x) (s.withInputs es)
  | .reset :: es => .resetInput (s.withInputs es)

/-- The sequencing state (10_state.md R34) at the point where an engine step with this phase code is next: PHASE is the code,
and where T, BLK or NBLK do not name a word, round or block of that phase they take the values with which the phase is
entered (T = 16 in SCHED and T = 0 in ROUND, R146 and R171; block 0 of the padded message in LOAD, R110). Log entry 15. -/
def enterPhase (phase : BitVec 4) (s : State) : State :=
  if phase = Phase.load.code then
    if s.blk.toNat < s.nblk.toNat then { s with phase := phase }
    else { s with phase := phase, blk := 0, nblk := BitVec.ofNat 64 (blockCount s.msgLen.toNat) }
  else if phase = Phase.sched.code then
    if 16 ≤ s.t.toNat ∧ s.t.toNat < 64 then { s with phase := phase } else { s with phase := phase, t := 16 }
  else if phase = Phase.round.code then
    if s.t.toNat < 64 then { s with phase := phase } else { s with phase := phase, t := 0 }
  else { s with phase := phase }

/-- A state in which a host transaction runs as decoded: a reserved code in PHASE (R89) gives way to IDLE. Log entry 15. -/
def admitHost (s : State) : State := if reservedPhase s.phase then s.withPhase .idle else s

/-- The state in which the encoded form is the very next thing the step runs. -/
def placeEncoded (e : Encoded) (s : State) : State :=
  match e with
  | .host x => (admitHost s).withInputs (.host x :: s.inputs)
  | .engine phase => enterPhase phase (s.withInputs (.engine :: s.inputs))

/-- The same for a bit string (`encodedOfBits`); a bit string that is no word of any format changes nothing. -/
def placeWord (s : State) (nbits w : Nat) : State :=
  match encodedOfBits nbits w with
  | .ok e => placeEncoded e s
  | .error _ => s

end Sys2Proof.Machine
end

