-- ==== Sys2Proof/Machine/Step.lean ====
section
/-! DEFINITION. One atomic event of an execution (20_memory.md R60): a host transaction, an engine step or the reset
input. -/

namespace Sys2Proof.Machine

/-- The step: the next event of the order is consumed, and its instruction runs. -/
def step (s : State) : Host.Outcome State Fault Refusal :=
  match fetch s with
  | .run i s' => exec i s'
  | .resetInput s' => .next (resetInput s')

/-- `s` with a table word placed where the next step finds its instruction: at the head of the events still to come, and for
an ES word in PHASE (log entry 15). -/
def State.withFetchWord (s : State) (nbits w : Nat) : State := placeWord s nbits w

end Sys2Proof.Machine
end

