-- ==== Sys2Proof/Machine/Reference.lean ====
section
/-! DEFINITION. SHA-256 as the spec's equations state it, as pure functions of the message: padding (40_padder.md R113,
R114), blocks (R116), the schedule (41_scheduler.md R145), compression (42_compressor.md R160) and the digest (43_digest.md
R191, R196). No step of the machine calls these; the statements compare the machine with them. -/

namespace Sys2Proof.Machine

/-- The eight variables a..h, or the hash words h0..h7 (R160). -/
structure HashVars where
  a : Word
  b : Word
  c : Word
  d : Word
  e : Word
  f : Word
  g : Word
  h : Word
  deriving DecidableEq, Repr

/-- A register file as the tuple of R160. -/
def toVars (v : Vector Word 8) : HashVars := ⟨v[0], v[1], v[2], v[3], v[4], v[5], v[6], v[7]⟩

/-- 8L in 64 bits, most significant byte first (R113). -/
def refLengthField (len : Nat) : List Byte :=
  (List.range 8).map fun i => BitVec.ofNat 8 ((8 * len) / 256 ^ (7 - i))

/-- The padded message: the message, 0x80, zero bytes up to the length field, the length field (R113). -/
def refPad (msg : List Byte) : List Byte :=
  msg ++ [0x80] ++ List.replicate (64 * blockCount msg.length - msg.length - 9) 0x00 ++ refLengthField msg.length

/-- The 16 big-endian words of block b (R116, R117). -/
def refBlock (padded : List Byte) (b : Nat) : List Word :=
  (List.range 16).map fun k =>
    let j := 64 * b + 4 * k
    be32 (padded.getD j 0) (padded.getD (j + 1) 0) (padded.getD (j + 2) 0) (padded.getD (j + 3) 0)

/-- `n` more schedule words, each from the words 2, 7, 15 and 16 places back (R145). -/
def refExtend : Nat → List Word → List Word
  | 0, ws => ws
  | n + 1, ws =>
    refExtend n (ws ++ [smallSigma1 (ws.getD (ws.length - 2) 0) + ws.getD (ws.length - 7) 0 +
      smallSigma0 (ws.getD (ws.length - 15) 0) + ws.getD (ws.length - 16) 0])

/-- W[0..63] of a block (R145). -/
def refSchedule (block : List Word) : List Word := refExtend 48 block

/-- One round with its constant and its schedule word (R160). -/
def refRound (x : HashVars) (kw : Word × Word) : HashVars :=
  let t1 := x.h + bigSigma1 x.e + ch x.e x.f x.g + kw.1 + kw.2
  let t2 := bigSigma0 x.a + maj x.a x.b x.c
  ⟨t1 + t2, x.a, x.b, x.c, x.d + t1, x.e, x.f, x.g⟩

/-- The first `n` rounds of a block (R160). -/
def refRounds (n : Nat) (x : HashVars) (ws : List Word) : HashVars :=
  ((kList.zip ws).take n).foldl refRound x

/-- Word-wise addition mod 2^32: the fold (R160). -/
def refAdd (x y : HashVars) : HashVars :=
  ⟨x.a + y.a, x.b + y.b, x.c + y.c, x.d + y.d, x.e + y.e, x.f + y.f, x.g + y.g, x.h + y.h⟩

/-- The compression function (R160). -/
def refCompress (x : HashVars) (ws : List Word) : HashVars := refAdd x (refRounds 64 x ws)

/-- The hash state after the first `n` blocks of the padded message (R173). -/
def refHash (padded : List Byte) : Nat → HashVars
  | 0 => toVars ivRom
  | n + 1 => refCompress (refHash padded n) (refSchedule (refBlock padded n))

/-- SHA-256 of a message, as its eight words (R196). -/
def refSha256 (msg : List Byte) : HashVars := refHash (refPad msg) (blockCount msg.length)

/-- The eight words in order. -/
def HashVars.words (x : HashVars) : List Word := [x.a, x.b, x.c, x.d, x.e, x.f, x.g, x.h]

/-- The digest: h0..h7 as 4-byte big-endian words, in order (R191). -/
def refDigest (msg : List Byte) : List Byte :=
  (refSha256 msg).words.flatMap fun w => [byteOf 0 w, byteOf 1 w, byteOf 2 w, byteOf 3 w]

end Sys2Proof.Machine
end

