-- ==== Sys2Proof/Machine/Script.lean ====
section
/-! DEFINITION. The host-script notation and its pseudo-operations (30_encoding.md R92, R93) as lists of events, and the boot
and use sequence (70_reset_and_hazards.md R272). A script is a value of `State.inputs`. -/

namespace Sys2Proof.Machine

/-- `wr off, data`: HW word `off, data` (R92). -/
def wr (off data : Word) : Event := .host (.write (TxWord.mk off data))

/-- `rd off`: HR word `off, 0` (R92). -/
def rd (off : Word) : Event := .host (.read (TxWord.mk off 0))

/-- `step`: one engine step (R92). -/
def engineStep : Event := .engine

/-- `step xN`: n engine steps (R92). `run` is this with the number of steps until PHASE is quiescent, which `jobSteps`
gives. -/
def engineSteps (n : Nat) : List Event := List.replicate n .engine

/-- The engine steps from PAD to DONE for a message of `len` bytes that fits: 1 + 115 * NBLK (43_digest.md R194). -/
def jobSteps (len : Nat) : Nat := 1 + 115 * blockCount len

/-- `nop` (R93). -/
def nopScript : List Event := [wr 0x00000000 0x00000000]

/-- `start` (R93). -/
def startScript : List Event := [wr 0x00000000 0x00000001]

/-- `setlen L`: MSG_LEN_LO, then MSG_LEN_HI (R93). -/
def setlenScript (len : BitVec 64) : List Event :=
  [wr 0x00000008 (len.extractLsb' 0 32), wr 0x0000000C (len.extractLsb' 32 32)]

/-- Word k of `msg`: a byte index past the message contributes 0x00 (R93). -/
def messageWord (msg : List Byte) (k : Nat) : Word :=
  be32 (msg.getD (4 * k) 0) (msg.getD (4 * k + 1) 0) (msg.getD (4 * k + 2) 0) (msg.getD (4 * k + 3) 0)

/-- `msg b0 .. b(n-1)`: one window write for each k in 0 .. ceil(n/4)-1 (R93). -/
def msgScript (msg : List Byte) : List Event :=
  (List.range ((msg.length + 3) / 4)).map fun k => wr (windowOffset (BitVec.ofNat 30 k)) (messageWord msg k)

/-- `wait`: reads of STATUS, each after some engine steps of the interleaving (R93; 20_memory.md R60). `gaps` is how many
steps come before each read; the host stops when a read shows BUSY = 0 (`pollShowsIdle`). -/
def waitScript (gaps : List Nat) : List Event :=
  gaps.flatMap fun n => engineSteps n ++ [rd 0x00000004]

/-- A STATUS value whose bit 4, BUSY, is 0: `wait` ends (R93). -/
def pollShowsIdle (status : Word) : Bool := !status.getLsbD 4

/-- `digest`: the reads of DIGEST0 .. DIGEST7, in order (R93). -/
def digestScript : List Event :=
  (List.range 8).map fun i => rd (digestOffset (BitVec.ofNat 3 i))

/-- The host's part of R272 up to the start of the job: load the message, set the length, start. -/
def hashScript (msg : List Byte) : List Event :=
  msgScript msg ++ setlenScript (BitVec.ofNat 64 msg.length) ++ startScript

end Sys2Proof.Machine
end

