-- ==== Sys2Proof/Safety.lean ====
section
/-! DEFINITION. The terms the statements use: the invariant of reachable states, a job in progress, what a host can tell
apart, the transition table of PHASE, and the frames. Nothing here is called by a step. -/

namespace Sys2Proof.Machine

/-- The busy phases after PAD (10_state.md R25). -/
def State.inBlocks (s : State) : Prop :=
  s.phase = Phase.load.code ∨ s.phase = Phase.sched.code ∨ s.phase = Phase.cinit.code ∨
  s.phase = Phase.round.code ∨ s.phase = Phase.fold.code

/-- The invariant every step keeps (40_padder.md R118; 10_state.md R24, R25, R28, R29; 60_exceptions.md R240, R241,
R243). -/
structure State.Inv (s : State) : Prop where
  /-- MSG_CAP is in the range of 00_scope.md R7. -/
  capLegal : Config.legalMsgCap s.msgCap
  /-- MSGMEM is in canonical form. -/
  memWf : s.mem.wf
  /-- MSGMEM lists only bytes of the buffer, MSGMEM[0..MSG_CAP-1] (R37). -/
  memInBuffer : ∀ c ∈ s.mem, c.1 < s.msgCap
  /-- PHASE never holds 9..15 (30_encoding.md R89). -/
  phaseNamed : s.phase.toNat ≤ 8
  /-- ERR holds NONE or a code that is raised: never 1, 5 or 6..15 (30_encoding.md R87; 60_exceptions.md R241, R243). -/
  errRaised : s.err = ErrCode.noError.code ∨ s.err = ErrCode.inputTooLarge.code ∨
    s.err = ErrCode.bufferOverrun.code ∨ s.err = ErrCode.badCommand.code
  /-- ERR names an error exactly in ERROR (R250, R251, R203). -/
  errorPhase : s.phase = Phase.error.code ↔ s.err ≠ ErrCode.noError.code
  /-- In every busy phase after PAD the message fits, NBLK is its block count, and BLK < NBLK (R25, R110, R112). -/
  blocks : s.inBlocks → s.msgLen.toNat ≤ s.msgCap ∧ s.nblk.toNat = blockCount s.msgLen.toNat ∧ s.blk.toNat < s.nblk.toNat
  /-- T is in 16..63 in SCHED (R118). -/
  schedT : s.phase = Phase.sched.code → 16 ≤ s.t.toNat ∧ s.t.toNat < 64
  /-- T is in 0..63 in ROUND (R118). -/
  roundT : s.phase = Phase.round.code → s.t.toNat < 64

/-- MSG_LEN and MSGMEM hold the message `msg`, every byte of it written (43_digest.md R196). -/
structure State.HoldsMessage (msg : List Byte) (s : State) : Prop where
  length : s.msgLen.toNat = msg.length
  fits : msg.length ≤ s.msgCap
  bytes : ∀ j, (hj : j < msg.length) → s.mem.read j = some msg[j]

/-- The first `n` schedule words of block `b` are in W (41_scheduler.md R145). -/
def State.scheduled (msg : List Byte) (b n : Nat) (s : State) : Prop :=
  ∀ i, (hi : i < 64) → i < n → some s.w[i] = (refSchedule (refBlock (refPad msg) b))[i]?

/-- The working variables after `n` rounds of block `b` are in V (42_compressor.md R160). -/
def State.rounded (msg : List Byte) (b n : Nat) (s : State) : Prop :=
  toVars s.v = refRounds n (refHash (refPad msg) b) (refSchedule (refBlock (refPad msg) b))

/-- A job over `msg` in progress: each busy phase holds what the equations of SHA-256 give at that point. -/
structure State.Hashing (msg : List Byte) (s : State) : Prop where
  message : s.HoldsMessage msg
  progress :
    s.phase = Phase.pad.code ∨
    (s.nblk.toNat = blockCount msg.length ∧ s.blk.toNat < s.nblk.toNat ∧
      toVars s.h = refHash (refPad msg) s.blk.toNat ∧
      (s.phase = Phase.load.code ∨
       (s.phase = Phase.sched.code ∧ 16 ≤ s.t.toNat ∧ s.t.toNat < 64 ∧ s.scheduled msg s.blk.toNat s.t.toNat) ∨
       (s.phase = Phase.cinit.code ∧ s.scheduled msg s.blk.toNat 64) ∨
       (s.phase = Phase.round.code ∧ s.t.toNat < 64 ∧ s.scheduled msg s.blk.toNat 64 ∧
         s.rounded msg s.blk.toNat s.t.toNat) ∨
       (s.phase = Phase.fold.code ∧ s.rounded msg s.blk.toNat 64)))

/-- The job over `msg` has ended in DONE with its digest in H (R195, R196). -/
structure State.Hashed (msg : List Byte) (s : State) : Prop where
  phase : s.phase = Phase.done.code
  hash : toVars s.h = refSha256 msg

/-- Two states no host can tell apart: the visible state agrees, and so does each hidden register a later step or a DIGEST
read still uses before it is written (10_state.md R36; 70_reset_and_hazards.md R270). -/
structure State.HostSame (s u : State) : Prop where
  phase : u.phase = s.phase
  err : u.err = s.err
  msgLen : u.msgLen = s.msgLen
  mem : u.mem = s.mem
  msgCap : u.msgCap = s.msgCap
  inputs : u.inputs = s.inputs
  rdata : u.rdata = s.rdata
  draws : u.draws = s.draws
  hash : s.inBlocks ∨ s.phase = Phase.done.code → u.h = s.h
  counters : s.inBlocks → u.blk = s.blk ∧ u.nblk = s.nblk
  schedule : s.phase = Phase.sched.code → u.t = s.t ∧ ∀ i, (hi : i < 64) → i < s.t.toNat → u.w[i] = s.w[i]
  words : s.phase = Phase.cinit.code ∨ s.phase = Phase.round.code → u.w = s.w
  rounds : s.phase = Phase.round.code → u.t = s.t ∧ u.v = s.v
  vars : s.phase = Phase.fold.code → u.v = s.v

/-- The same state with other values in the registers reset leaves unspecified (R270). -/
def State.withHidden (s : State) (h v : Vector Word 8) (w : Vector Word 64) (t : BitVec 7) (blk nblk : BitVec 64) : State :=
  { s with h := h, v := v, w := w, t := t, blk := blk, nblk := nblk }

/-- The engine rows of the transition table of 43_digest.md R190. -/
def tableEnginePhase (s : State) : BitVec 4 :=
  if s.phase = Phase.pad.code then
    if s.msgLen.toNat ≥ 2 ^ 61 ∨ s.msgLen.toNat > s.msgCap then Phase.error.code else Phase.load.code
  else if s.phase = Phase.load.code then Phase.sched.code
  else if s.phase = Phase.sched.code then
    if s.t.toNat = 63 then Phase.cinit.code else Phase.sched.code
  else if s.phase = Phase.cinit.code then Phase.round.code
  else if s.phase = Phase.round.code then
    if s.t.toNat = 63 then Phase.fold.code else Phase.round.code
  else if s.phase = Phase.fold.code then
    if s.blk.toNat + 1 = s.nblk.toNat then Phase.done.code else Phase.load.code
  else s.phase

/-- The host rows of the table of R190: only a CMD write while not busy moves PHASE. -/
def tableHostPhase (s : State) : Transaction → BitVec 4
  | .write word =>
    if TxWord.addr word = 0 ∧ s.busy = false then
      if TxWord.data word = 1 then Phase.pad.code
      else if TxWord.data word = 0 then s.phase
      else Phase.error.code
    else s.phase
  | .read _ => s.phase

/-- The table of R190 for the next event. -/
def tablePhase (s : State) : BitVec 4 :=
  match s.inputs with
  | .reset :: _ => Phase.idle.code
  | .host x :: _ => tableHostPhase s x
  | .engine :: _ => tableEnginePhase s
  | [] => tableEnginePhase s

/-- ERR after an engine step: only the errors of PAD write it (10_state.md R29; 60_exceptions.md R242, R244). -/
def tableEngineErr (s : State) : BitVec 4 :=
  if s.phase = Phase.pad.code then
    if s.msgLen.toNat ≥ 2 ^ 61 then ErrCode.inputTooLarge.code
    else if s.msgLen.toNat > s.msgCap then ErrCode.bufferOverrun.code
    else s.err
  else s.err

/-- ERR after a host transaction: an accepted START clears it, an illegal command writes BAD_COMMAND (R29, R245, R251). -/
def tableHostErr (s : State) : Transaction → BitVec 4
  | .write word =>
    if TxWord.addr word = 0 ∧ s.busy = false then
      if TxWord.data word = 1 then ErrCode.noError.code
      else if TxWord.data word = 0 then s.err
      else ErrCode.badCommand.code
    else s.err
  | .read _ => s.err

/-- ERR after the next event. -/
def tableErr (s : State) : BitVec 4 :=
  match s.inputs with
  | .reset :: _ => ErrCode.noError.code
  | .host x :: _ => tableHostErr s x
  | .engine :: _ => tableEngineErr s
  | [] => tableEngineErr s

/-- The next event is a step of the engine: the order says so, or the host is silent (20_memory.md R60). -/
def State.engineNext (s : State) : Prop := s.inputs = [] ∨ ∃ es, s.inputs = .engine :: es

/-- The events that remain after the next one. -/
def State.restInputs (s : State) : List Event := s.inputs.tail

/-- `n` steps of the core, by the host's own run. -/
def runSteps (n : Nat) (s : State) : Host.Outcome State Fault Refusal := Host.Core.run Sys2Proof.core n s

/-- The engine steps a job still needs to reach DONE (43_digest.md R194), while it is in progress. -/
def State.stepsLeft (s : State) : Nat :=
  let later := 115 * (s.nblk.toNat - s.blk.toNat - 1)
  if s.phase = Phase.pad.code then jobSteps s.msgLen.toNat
  else if s.phase = Phase.load.code then 115 + later
  else if s.phase = Phase.sched.code then (64 - s.t.toNat) + 66 + later
  else if s.phase = Phase.cinit.code then 66 + later
  else if s.phase = Phase.round.code then (64 - s.t.toNat) + 1 + later
  else if s.phase = Phase.fold.code then 1 + later
  else 0

/-- The first 64 primes (42_compressor.md R161, R162). -/
def firstPrimes : List Nat :=
  [2, 3, 5, 7, 11, 13, 17, 19, 23, 29, 31, 37, 41, 43, 47, 53] ++
  [59, 61, 67, 71, 73, 79, 83, 89, 97, 101, 103, 107, 109, 113, 127, 131] ++
  [137, 139, 149, 151, 157, 163, 167, 173, 179, 181, 191, 193, 197, 199, 211, 223] ++
  [227, 229, 233, 239, 241, 251, 257, 263, 269, 271, 277, 281, 283, 293, 307, 311]

/-! ## Frames -/

/-- The engine's registers H, V, W, T, BLK and NBLK are unchanged. -/
def State.SameEngine (s u : State) : Prop :=
  u.h = s.h ∧ u.v = s.v ∧ u.w = s.w ∧ u.t = s.t ∧ u.blk = s.blk ∧ u.nblk = s.nblk

/-- MSG_LEN, MSG_CAP and every byte of MSGMEM are unchanged. -/
def State.SameMessage (s u : State) : Prop :=
  u.msgLen = s.msgLen ∧ u.msgCap = s.msgCap ∧ ∀ j, u.mem.read j = s.mem.read j

/-- PHASE and ERR are unchanged. -/
def State.SameControl (s u : State) : Prop :=
  u.phase = s.phase ∧ u.err = s.err

/-- The model's own fields are unchanged: the events to come, the last read value, the draws. -/
def State.SameHostSide (s u : State) : Prop :=
  u.inputs = s.inputs ∧ u.rdata = s.rdata ∧ u.draws = s.draws

end Sys2Proof.Machine
end

