-- ==== Sys2Proof/Certificates/Slice0/Obligations.lean ====
section
/-! DEFINITION. The statements. Each docstring names the rules of spec/ it rests on. -/

open Sys2Proof Sys2Proof.Machine

/-! ## Encoding -/

/-- Decoding an encoded well-formed instruction gives it back, with every operand (30_encoding.md R80, R81, R83 to R85,
R88; spec/opcode_table.json). -/
def Obligations.DecodeOfEncodeIsTheInstruction : Prop :=
  ∀ (cap : Nat) (busy : Bool) (i : Instr), Config.legalMsgCap cap → i.wf cap = true → i.fitsBusy busy = true →
    decode cap busy (encode i) = i

/-- Encoding what was decoded gives the form back, with the ignored bits of an HR word written as 0 (R80). -/
def Obligations.EncodeOfDecodeIsTheCanonicalForm : Prop :=
  ∀ (cap : Nat) (busy : Bool) (e : Encoded), Config.legalMsgCap cap → encode (decode cap busy e) = e.canonical

/-- The decoder gives only well-formed instructions that fit the value of BUSY (R83, R85, R201). -/
def Obligations.DecodedInstructionsAreWellFormed : Prop :=
  ∀ (cap : Nat) (busy : Bool) (e : Encoded), Config.legalMsgCap cap →
    (decode cap busy e).wf cap = true ∧ (decode cap busy e).fitsBusy busy = true

/-- The decode order of an offset (R83), with the operand each case gives, and what a misaligned access then does. -/
def Obligations.OffsetsAreDecodedInOrder : Prop :=
  ∀ (cap : Nat) (a : Word), Config.legalMsgCap cap →
    (a.toNat % 4 ≠ 0 →
      (∃ low hi, classify cap a = .misaligned low hi ∧ low.toNat = a.toNat % 4 ∧ hi.toNat = a.toNat / 4) ∧
      ∀ (busy : Bool) (d : Word) (s : State),
        exec (decodeWrite cap busy (TxWord.mk a d)) s = .next s ∧
        exec (decodeRead cap (TxWord.mk a d)) s = .next { s with rdata := 0 }) ∧
    (a.toNat = 0x00 → classify cap a = .cmd) ∧
    (a.toNat = 0x04 → classify cap a = .status) ∧
    (a.toNat = 0x08 → classify cap a = .msgLenLo) ∧
    (a.toNat = 0x0C → classify cap a = .msgLenHi) ∧
    (a.toNat % 4 = 0 → 0x20 ≤ a.toNat → a.toNat ≤ 0x3C →
      ∃ i, classify cap a = .digest i ∧ i.toNat = (a.toNat - 0x20) / 4) ∧
    (a.toNat % 4 = 0 → 0x1000 ≤ a.toNat → a.toNat < 0x1000 + cap →
      ∃ k, classify cap a = .msgwin k ∧ k.toNat = (a.toNat - 0x1000) / 4 ∧ 4 * k.toNat + 3 < cap) ∧
    (a.toNat % 4 = 0 → 0x0C < a.toNat → (a.toNat < 0x20 ∨ 0x3C < a.toNat) →
      (a.toNat < 0x1000 ∨ 0x1000 + cap ≤ a.toNat) →
      ∃ hi, classify cap a = .reserved hi ∧ hi.toNat = a.toNat / 4)

/-- The ES format is decoded by the phase code, and codes 0..8 have the BUSY of the table (R88); codes 9..15 are the reserved
rows (R89; spec/opcode_table.json). -/
def Obligations.PhaseCodesSelectTheEngineStep : Prop :=
  (decodeEngine 0 = .esIdle ∧ busyPhase 0 = false) ∧ (decodeEngine 1 = .esPad ∧ busyPhase 1 = true) ∧
  (decodeEngine 2 = .esLoad ∧ busyPhase 2 = true) ∧ (decodeEngine 3 = .esSched ∧ busyPhase 3 = true) ∧
  (decodeEngine 4 = .esCinit ∧ busyPhase 4 = true) ∧ (decodeEngine 5 = .esRound ∧ busyPhase 5 = true) ∧
  (decodeEngine 6 = .esFold ∧ busyPhase 6 = true) ∧ (decodeEngine 7 = .esDone ∧ busyPhase 7 = false) ∧
  (decodeEngine 8 = .esError ∧ busyPhase 8 = false) ∧
  decodeEngine 9 = .esReserved9 ∧ decodeEngine 10 = .esReserved10 ∧ decodeEngine 11 = .esReserved11 ∧
  decodeEngine 12 = .esReserved12 ∧ decodeEngine 13 = .esReserved13 ∧ decodeEngine 14 = .esReserved14 ∧
  decodeEngine 15 = .esReserved15

/-- Transaction words written out from the encodings decode to the instructions they stand for, with MSG_CAP = 4096 and, the
last two, with MSG_CAP = 64 (R80, R81, R83, R85). -/
def Obligations.ScriptWordsDecode : Prop :=
  decode 4096 false (.host (.write 0x0000000000000001)) = .start ∧
  decode 4096 false (.host (.write 0x0000000000000002)) = .cmdIllegal 2 ∧
  decode 4096 true (.host (.write 0x0000000000000002)) = .cmdBusy 2 ∧
  decode 4096 false (.host (.write 0x0000000800000003)) = .wrMsgLenLo 3 ∧
  decode 4096 false (.host (.write 0x0000000C20000000)) = .wrMsgLenHi 0x20000000 ∧
  decode 4096 false (.host (.write 0x0000103465666768)) = .wrMsgwin 13 0x65666768 ∧
  decode 4096 false (.host (.read 0x0000000400000000)) = .rdStatus ∧
  decode 4096 false (.host (.read 0x0000003C00000000)) = .rdDigest 7 ∧
  decode 64 false (.host (.write 0x0000100212345678)) = .wrMisaligned10 0x400 0x12345678 ∧
  decode 64 false (.host (.read 0x0000104000000000)) = .rdReserved 0x410

/-! ## The step -/

/-- A step consumes the next event of the order and runs the instruction decoded from it; with no event left the engine
acts (20_memory.md R60, R64; 30_encoding.md R80). A host transaction runs so when PHASE holds no reserved code (R89; the other
case is in ReservedPhasesFault). A reset event is the reset input (70_reset_and_hazards.md R270; 92_eei_decisions.md D24). The
list of events is the model's choice (log entry 3), and so is the reset input as one event of it (log entry 6). -/
def Obligations.StepRunsTheDecodedInstruction : Prop :=
  ∀ (s : State) (es : List Event) (x : Transaction),
    (s.inputs = [] → step s = exec (decode s.msgCap s.busy (.engine s.phase)) s) ∧
    (s.inputs = .engine :: es → step s = exec (decode s.msgCap s.busy (.engine s.phase)) { s with inputs := es }) ∧
    (s.inputs = .host x :: es → s.phase.toNat ≤ 8 → step s = exec (decode s.msgCap s.busy (.host x)) { s with inputs := es }) ∧
    (s.inputs = .reset :: es → step s = .next (resetInput { s with inputs := es }))

/-! ## Host writes

A host transaction runs only while PHASE is at most 8, as in every state with the invariant; in the other states it faults
(ReservedPhasesFault). -/

/-- A CMD write, whatever its value and the phase (44_host_interface.md R201). -/
def Obligations.CommandWritesFollowTheDispatch : Prop :=
  ∀ (s : State) (word : TxWord) (es : List Event), s.phase.toNat ≤ 8 →
    s.inputs = .host (.write word) :: es → TxWord.addr word = 0 →
    (s.busy = true → step s = .next { s with inputs := es }) ∧
    (s.busy = false → TxWord.data word = 0 → step s = .next { s with inputs := es }) ∧
    (s.busy = false → TxWord.data word = 1 → step s = .next { s with inputs := es, err := 0, phase := 1 }) ∧
    (s.busy = false → TxWord.data word ≠ 0 → TxWord.data word ≠ 1 →
      step s = .next { s with inputs := es, err := 4, phase := 8 })

/-- The four command rows as instructions (R202 to R205): each completes; START and an illegal command write ERR and PHASE
only. That these two rows, run apart from the decoder, are dropped while busy is the model's reading of R201 (log entry 12). -/
def Obligations.CommandsComplete : Prop :=
  ∀ (s : State) (d : Word),
    exec .nop s = .next s ∧
    (s.busy = false → exec .start s = .next { s with err := 0, phase := 1 }) ∧
    (s.busy = false → d ≠ 0 → d ≠ 1 → exec (.cmdIllegal d) s = .next { s with err := 4, phase := 8 }) ∧
    (s.busy = true → exec (.cmdBusy d) s = .next s ∧ exec .start s = .next s ∧ exec (.cmdIllegal d) s = .next s)

/-- Misaligned and reserved offsets: a write changes nothing, a read returns 0 and changes nothing else (20_memory.md R55,
R58; R215; log entry 14). -/
def Obligations.MisalignedAndReservedAccessesDoNothing : Prop :=
  ∀ (s : State) (word : TxWord) (es : List Event), Config.legalMsgCap s.msgCap → s.phase.toNat ≤ 8 →
    ((TxWord.addr word).toNat % 4 ≠ 0 ∨
      (0x10 ≤ (TxWord.addr word).toNat ∧ (TxWord.addr word).toNat ≤ 0x1C) ∨
      (0x40 ≤ (TxWord.addr word).toNat ∧ (TxWord.addr word).toNat ≤ 0xFFC) ∨
      0x1000 + s.msgCap ≤ (TxWord.addr word).toNat) →
    (s.inputs = .host (.write word) :: es → step s = .next { s with inputs := es }) ∧
    (s.inputs = .host (.read word) :: es → step s = .next { s with inputs := es, rdata := 0 })

/-- A write to STATUS or to a DIGEST register has no effect (R210). -/
def Obligations.WritesToReadOnlyRegistersDoNothing : Prop :=
  ∀ (s : State) (word : TxWord) (es : List Event), Config.legalMsgCap s.msgCap → s.phase.toNat ≤ 8 →
    s.inputs = .host (.write word) :: es →
    ((TxWord.addr word).toNat = 4 ∨ ∃ i, i < 8 ∧ (TxWord.addr word).toNat = 0x20 + 4 * i) →
    step s = .next { s with inputs := es }

/-- The rows of the writes with no effect, as instructions: each completes (R55, R210, R215). -/
def Obligations.WritesWithoutEffectComplete : Prop :=
  ∀ (s : State) (a : BitVec 30) (i : BitVec 3) (d : Word),
    exec (.wrMisaligned01 a d) s = .next s ∧ exec (.wrMisaligned10 a d) s = .next s ∧
    exec (.wrMisaligned11 a d) s = .next s ∧ exec (.wrStatus d) s = .next s ∧
    exec (.wrDigest i d) s = .next s ∧ exec (.wrReserved a d) s = .next s

/-- MSG_LEN writes: each sets its half and keeps the other, and is dropped while busy; nothing else changes (R207, R208). -/
def Obligations.LengthWritesSetTheirHalf : Prop :=
  ∀ (s : State) (d : Word),
    (s.busy = true → exec (.wrMsgLenLo d) s = .next s ∧ exec (.wrMsgLenHi d) s = .next s) ∧
    (s.busy = false →
      (∃ t, exec (.wrMsgLenLo d) s = .next t ∧
        t.msgLen.toNat = 2 ^ 32 * (s.msgLen.toNat / 2 ^ 32) + d.toNat ∧
        t.msgCap = s.msgCap ∧ (∀ j, t.mem.read j = s.mem.read j) ∧
        s.SameEngine t ∧ s.SameControl t ∧ s.SameHostSide t) ∧
      (∃ t, exec (.wrMsgLenHi d) s = .next t ∧
        t.msgLen.toNat = 2 ^ 32 * d.toNat + s.msgLen.toNat % 2 ^ 32 ∧
        t.msgCap = s.msgCap ∧ (∀ j, t.mem.read j = s.mem.read j) ∧
        s.SameEngine t ∧ s.SameControl t ∧ s.SameHostSide t))

/-- A window write stores its four bytes at 4k .. 4k+3, the most significant first, and is dropped while busy; every other
byte and everything else is unchanged (R209; 20_memory.md R54). -/
def Obligations.WindowWritesStoreBigEndianLanes : Prop :=
  ∀ (s : State) (k : BitVec 30) (d : Word), Instr.windowWord s.msgCap k →
    (s.busy = true → exec (.wrMsgwin k d) s = .next s) ∧
    (s.busy = false → ∃ t, exec (.wrMsgwin k d) s = .next t ∧
      t.mem.read (4 * k.toNat) = some (d.extractLsb' 24 8) ∧
      t.mem.read (4 * k.toNat + 1) = some (d.extractLsb' 16 8) ∧
      t.mem.read (4 * k.toNat + 2) = some (d.extractLsb' 8 8) ∧
      t.mem.read (4 * k.toNat + 3) = some (d.extractLsb' 0 8) ∧
      (∀ j, j < 4 * k.toNat ∨ 4 * k.toNat + 4 ≤ j → t.mem.read j = s.mem.read j) ∧
      t.msgLen = s.msgLen ∧ t.msgCap = s.msgCap ∧ s.SameEngine t ∧ s.SameControl t ∧ s.SameHostSide t)

/-- While BUSY = 1 no host write has an effect, whatever its offset and value: CMD, MSG_LEN and the window are dropped (R204,
R207 to R209; 70_reset_and_hazards.md R282), and the other offsets take no write in any phase (R55, R210, R215). -/
def Obligations.HostWritesWhileBusyAreDropped : Prop :=
  ∀ (s : State) (word : TxWord) (es : List Event),
    s.inputs = .host (.write word) :: es → s.busy = true → step s = .next { s with inputs := es }

/-! ## Host reads -/

/-- STATUS is `ERR, 000, BUSY, PHASE`, zero-extended (R211; 30_encoding.md R86), and the read changes nothing else. -/
def Obligations.StatusReadReturnsItsFields : Prop :=
  ∀ (s : State), ∃ t, exec .rdStatus s = .next t ∧
    t.rdata.toNat = 256 * s.err.toNat + (if 1 ≤ s.phase.toNat ∧ s.phase.toNat ≤ 6 then 16 else 0) + s.phase.toNat ∧
    s.SameEngine t ∧ s.SameMessage t ∧ s.SameControl t ∧ t.inputs = s.inputs ∧ t.draws = s.draws

/-- DIGESTi reads H[i] in DONE and 0 in every other phase (R213), and the read changes nothing else. -/
def Obligations.DigestReadsAreGatedByDone : Prop :=
  ∀ (s : State) (i : BitVec 3),
    (s.phase = 7 → exec (.rdDigest i) s = .next { s with rdata := s.h[i.toNat]'i.isLt }) ∧
    (s.phase ≠ 7 → exec (.rdDigest i) s = .next { s with rdata := 0 })

/-- The reads of MSG_LEN return its halves (R212, R216), and change nothing else. -/
def Obligations.LengthReadsReturnTheirHalf : Prop :=
  ∀ (s : State),
    (∃ t, exec .rdMsgLenLo s = .next t ∧ t.rdata.toNat = s.msgLen.toNat % 2 ^ 32 ∧
      s.SameEngine t ∧ s.SameMessage t ∧ s.SameControl t ∧ t.inputs = s.inputs ∧ t.draws = s.draws) ∧
    (∃ t, exec .rdMsgLenHi s = .next t ∧ t.rdata.toNat = s.msgLen.toNat / 2 ^ 32 ∧
      s.SameEngine t ∧ s.SameMessage t ∧ s.SameControl t ∧ t.inputs = s.inputs ∧ t.draws = s.draws)

/-- The rows of the reads that return 0, as instructions: each completes (R55, R206, R215). -/
def Obligations.ReadsOfZeroComplete : Prop :=
  ∀ (s : State) (a : BitVec 30),
    exec (.rdMisaligned01 a) s = .next { s with rdata := 0 } ∧
    exec (.rdMisaligned10 a) s = .next { s with rdata := 0 } ∧
    exec (.rdMisaligned11 a) s = .next { s with rdata := 0 } ∧
    exec .rdCmd s = .next { s with rdata := 0 } ∧
    exec (.rdReserved a) s = .next { s with rdata := 0 }

/-- A window read returns the stored value in the lane of each written byte, whatever the value of an unwritten one, and
changes nothing but the value read and the count of draws; with all four bytes written it draws nothing (R214;
20_memory.md R54, R56). The count is the model's own field (log entry 7). -/
def Obligations.WindowReadsReturnTheWrittenBytes : Prop :=
  ∀ (s : State) (k : BitVec 30), Instr.windowWord s.msgCap k →
    ∃ t, exec (.rdMsgwin k) s = .next t ∧
      (∀ b, s.mem.read (4 * k.toNat) = some b → t.rdata.extractLsb' 24 8 = b) ∧
      (∀ b, s.mem.read (4 * k.toNat + 1) = some b → t.rdata.extractLsb' 16 8 = b) ∧
      (∀ b, s.mem.read (4 * k.toNat + 2) = some b → t.rdata.extractLsb' 8 8 = b) ∧
      (∀ b, s.mem.read (4 * k.toNat + 3) = some b → t.rdata.extractLsb' 0 8 = b) ∧
      ((∀ i, i < 4 → (s.mem.read (4 * k.toNat + i)).isSome = true) → t.draws = s.draws) ∧
      s.SameEngine t ∧ s.SameMessage t ∧ s.SameControl t ∧ t.inputs = s.inputs

/-- A window word written while not busy reads back as the word written, through two transactions (R54, R209, R214). -/
def Obligations.WindowWordsReadBack : Prop :=
  ∀ (s : State) (k : BitVec 30) (d : Word) (es : List Event),
    Config.legalMsgCap s.msgCap → Instr.windowWord s.msgCap k → s.phase.toNat ≤ 8 → s.busy = false →
    s.inputs = .host (.write (TxWord.mk (0x1000 + (k ++ (0 : BitVec 2))) d)) ::
      .host (.read (TxWord.mk (0x1000 + (k ++ (0 : BitVec 2))) 0)) :: es →
    ∃ t u, step s = .next t ∧ step t = .next u ∧ u.rdata = d ∧ u.inputs = es

/-- Host reads complete at once and have no side effect, at every offset and in every phase (20_memory.md R57; R200). -/
def Obligations.HostReadsHaveNoSideEffects : Prop :=
  ∀ (s : State) (word : TxWord) (es : List Event), s.phase.toNat ≤ 8 → s.inputs = .host (.read word) :: es →
    ∃ t, step s = .next t ∧ s.SameEngine t ∧ s.SameMessage t ∧ s.SameControl t ∧ t.inputs = es

/-- No host transaction writes H, V, W, T, BLK or NBLK, and every one completes (10_state.md R21 to R25; R200, R210). -/
def Obligations.HostNeverWritesTheEngineRegisters : Prop :=
  ∀ (s : State) (x : Transaction) (es : List Event), s.phase.toNat ≤ 8 → s.inputs = .host x :: es →
    ∃ t, step s = .next t ∧ s.SameEngine t ∧ t.msgCap = s.msgCap ∧ t.inputs = es

/-! ## The engine -/

/-- The PAD step (40_padder.md R110, R111, R112): the two errors in their order, and the successful exit. -/
def Obligations.PadStepChecksTheLengthAndBeginsTheBlocks : Prop :=
  ∀ (s : State),
    (2 ^ 61 ≤ s.msgLen.toNat → exec .esPad s = .next { s with err := 2, phase := 8 }) ∧
    (s.msgLen.toNat < 2 ^ 61 → s.msgCap < s.msgLen.toNat → exec .esPad s = .next { s with err := 3, phase := 8 }) ∧
    (s.msgLen.toNat < 2 ^ 61 → s.msgLen.toNat ≤ s.msgCap → ∃ t, exec .esPad s = .next t ∧
      t.nblk.toNat = (s.msgLen.toNat + 72) / 64 ∧ t.blk = 0 ∧ t.phase = 2 ∧
      t.h = #v[0x6A09E667, 0xBB67AE85, 0x3C6EF372, 0xA54FF53A, 0x510E527F, 0x9B05688C, 0x1F83D9AB, 0x5BE0CD19] ∧
      t.v = s.v ∧ t.w = s.w ∧ t.t = s.t ∧ t.err = s.err ∧ s.SameMessage t ∧ s.SameHostSide t)

/-- The block count PAD writes (40_padder.md R112, R115): its formula and its bounds for every legal MSG_CAP, the 55/56
boundary, and the smallest multiple of 64 that holds the message, the terminator and the length field (R114 (b), (c)). -/
def Obligations.PadBlockCountIsTheSmallestThatFits : Prop :=
  ∀ (s t : State), Config.legalMsgCap s.msgCap → s.msgLen.toNat ≤ s.msgCap → exec .esPad s = .next t →
    t.nblk.toNat = (s.msgLen.toNat + 72) / 64 ∧
    (s.msgLen.toNat % 64 ≤ 55 → t.nblk.toNat = s.msgLen.toNat / 64 + 1) ∧
    (56 ≤ s.msgLen.toNat % 64 → t.nblk.toNat = s.msgLen.toNat / 64 + 2) ∧
    s.msgLen.toNat + 9 ≤ 64 * t.nblk.toNat ∧
    (∀ n, s.msgLen.toNat + 9 ≤ 64 * n → t.nblk.toNat ≤ n) ∧
    64 * t.nblk.toNat - s.msgLen.toNat - 9 ≤ 63 ∧
    1 ≤ t.nblk.toNat ∧ t.nblk.toNat ≤ 0x04000000

/-- PadByte over the whole padded message (R113, R114): the message, 0x80, zeros, and 8L in eight bytes, most significant
first, which 8L fits. -/
def Obligations.PaddedMessageHasTheRuledBytes : Prop :=
  ∀ (s : State), s.msgLen.toNat < 2 ^ 61 → s.nblk.toNat = (s.msgLen.toNat + 72) / 64 →
    (∀ j b, j < s.msgLen.toNat → s.mem.read j = some b → s.padByte j = .ok b) ∧
    s.padByte s.msgLen.toNat = .ok 0x80 ∧
    (∀ j, s.msgLen.toNat < j → j < 64 * s.nblk.toNat - 8 → s.padByte j = .ok 0x00) ∧
    (∀ i, i < 8 → ∃ b, s.padByte (64 * s.nblk.toNat - 8 + i) = .ok b ∧
      b.toNat = 8 * s.msgLen.toNat / 256 ^ (7 - i) % 256) ∧
    8 * s.msgLen.toNat < 2 ^ 64

/-- The LOAD step (R117): the 16 big-endian words of block BLK, T = 16, PHASE = SCHED, and nothing else, when the message
bytes of the block are written. -/
def Obligations.LoadStepParsesTheBlock : Prop :=
  ∀ (s : State), s.blk.toNat < s.nblk.toNat →
    (∀ j, 64 * s.blk.toNat ≤ j → j < 64 * s.blk.toNat + 64 → j < s.msgLen.toNat → (s.mem.read j).isSome = true) →
    ∃ t, exec .esLoad s = .next t ∧
      (∀ k, (hk : k < 16) → ∃ b0 b1 b2 b3,
        s.padByte (64 * s.blk.toNat + 4 * k) = .ok b0 ∧ s.padByte (64 * s.blk.toNat + 4 * k + 1) = .ok b1 ∧
        s.padByte (64 * s.blk.toNat + 4 * k + 2) = .ok b2 ∧ s.padByte (64 * s.blk.toNat + 4 * k + 3) = .ok b3 ∧
        (t.w[k]'(by omega)).toNat = b0.toNat * 2 ^ 24 + b1.toNat * 2 ^ 16 + b2.toNat * 2 ^ 8 + b3.toNat) ∧
      (∀ k, (hk : k < 64) → 16 ≤ k → t.w[k] = s.w[k]) ∧
      t.t = 16 ∧ t.phase = 3 ∧ t.err = s.err ∧ t.h = s.h ∧ t.v = s.v ∧ t.blk = s.blk ∧ t.nblk = s.nblk ∧
      s.SameMessage t ∧ s.SameHostSide t

/-- A LOAD step that reads an unwritten message byte faults with UNWRITTEN_READ and names such a byte (20_memory.md R56;
60_exceptions.md R246). -/
def Obligations.LoadStepFaultsOnAnUnwrittenByte : Prop :=
  ∀ (s : State) (j : Nat), s.blk.toNat < s.nblk.toNat →
    64 * s.blk.toNat ≤ j → j < 64 * s.blk.toNat + 64 → j < s.msgLen.toNat → s.mem.read j = none →
    ∃ e, exec .esLoad s = .fault (.unwrittenRead e) ∧
      64 * s.blk.toNat ≤ e ∧ e < 64 * s.blk.toNat + 64 ∧ e < s.msgLen.toNat ∧ s.mem.read e = none

/-- The SCHED step (41_scheduler.md R146): word T from the words 2, 7, 15 and 16 places back, T + 1, and CINIT after word
63; nothing else changes. -/
def Obligations.SchedStepComputesTheNextWord : Prop :=
  ∀ (s : State), (ht : 16 ≤ s.t.toNat ∧ s.t.toNat < 64) →
    ∃ t, exec .esSched s = .next t ∧
      t.w[s.t.toNat]'ht.2 =
        smallSigma1 (s.w[s.t.toNat - 2]'(by omega)) + s.w[s.t.toNat - 7]'(by omega) +
        smallSigma0 (s.w[s.t.toNat - 15]'(by omega)) + s.w[s.t.toNat - 16]'(by omega) ∧
      (∀ i, (hi : i < 64) → i ≠ s.t.toNat → t.w[i] = s.w[i]) ∧
      t.t.toNat = s.t.toNat + 1 ∧ (s.t.toNat = 63 → t.phase = 4) ∧ (s.t.toNat < 63 → t.phase = 3) ∧
      t.err = s.err ∧ t.h = s.h ∧ t.v = s.v ∧ t.blk = s.blk ∧ t.nblk = s.nblk ∧ s.SameMessage t ∧ s.SameHostSide t

/-- The CINIT step (42_compressor.md R170): V <- H, T <- 0, PHASE <- ROUND, and nothing else. -/
def Obligations.CinitStepCopiesTheHash : Prop :=
  ∀ (s : State), ∃ t, exec .esCinit s = .next t ∧
    (∀ i, (hi : i < 8) → t.v[i] = s.h[i]) ∧ t.t.toNat = 0 ∧ t.phase = 5 ∧
    t.err = s.err ∧ t.h = s.h ∧ t.w = s.w ∧ t.blk = s.blk ∧ t.nblk = s.nblk ∧ s.SameMessage t ∧ s.SameHostSide t

/-- The ROUND step (R171), with the round constants of R162: the eight variables, T + 1, and FOLD after round 63; nothing
else changes. -/
def Obligations.RoundStepRotatesTheVariables : Prop :=
  ∀ (s : State), (ht : s.t.toNat < 64) →
    ∃ t k t1 t2, exec .esRound s = .next t ∧ kList[s.t.toNat]? = some k ∧
      t1 = s.v[7] + bigSigma1 s.v[4] + ch s.v[4] s.v[5] s.v[6] + k + s.w[s.t.toNat] ∧
      t2 = bigSigma0 s.v[0] + maj s.v[0] s.v[1] s.v[2] ∧
      t.v[0] = t1 + t2 ∧ t.v[1] = s.v[0] ∧ t.v[2] = s.v[1] ∧ t.v[3] = s.v[2] ∧
      t.v[4] = s.v[3] + t1 ∧ t.v[5] = s.v[4] ∧ t.v[6] = s.v[5] ∧ t.v[7] = s.v[6] ∧
      t.t.toNat = s.t.toNat + 1 ∧ (s.t.toNat = 63 → t.phase = 6) ∧ (s.t.toNat < 63 → t.phase = 5) ∧
      t.err = s.err ∧ t.h = s.h ∧ t.w = s.w ∧ t.blk = s.blk ∧ t.nblk = s.nblk ∧ s.SameMessage t ∧ s.SameHostSide t

/-- The FOLD step (R172): H[i] + V[i] mod 2^32, BLK + 1, and DONE after the last block, else LOAD; nothing else changes. -/
def Obligations.FoldStepAddsAndAdvances : Prop :=
  ∀ (s : State),
    ∃ t, exec .esFold s = .next t ∧
      (∀ i, (hi : i < 8) → (t.h[i]).toNat = ((s.h[i]).toNat + (s.v[i]).toNat) % 2 ^ 32) ∧
      t.blk.toNat = (s.blk.toNat + 1) % 2 ^ 64 ∧
      (s.blk.toNat + 1 = s.nblk.toNat → t.phase = 7) ∧ (s.blk.toNat + 1 ≠ s.nblk.toNat → t.phase = 2) ∧
      t.err = s.err ∧ t.v = s.v ∧ t.w = s.w ∧ t.t = s.t ∧ t.nblk = s.nblk ∧ s.SameMessage t ∧ s.SameHostSide t

/-- In IDLE, DONE and ERROR the engine does nothing (43_digest.md R193; 60_exceptions.md R261): its turn leaves the state,
as an instruction and as a step. That such a turn is a next state is the model's choice (log entry 11). -/
def Obligations.QuiescentPhasesHaveNoStep : Prop :=
  ∀ (s : State),
    exec .esIdle s = .next s ∧ exec .esDone s = .next s ∧ exec .esError s = .next s ∧
    (s.phase = 0 ∨ s.phase = 7 ∨ s.phase = 8 → s.engineNext → step s = .next { s with inputs := s.restInputs })

/-- With PHASE in 9..15 every engine step and every host transaction faults with RESERVED_PHASE, and so does each reserved
row; and no step writes such a code, from reset on (30_encoding.md R89; 60_exceptions.md R246). The reset input alone takes
effect there, by R270 (log entry 16; ResetLeavesTheRuledValues). -/
def Obligations.ReservedPhasesFault : Prop :=
  ∀ (s : State),
    exec .esReserved9 s = .fault .reservedPhase ∧ exec .esReserved10 s = .fault .reservedPhase ∧
    exec .esReserved11 s = .fault .reservedPhase ∧ exec .esReserved12 s = .fault .reservedPhase ∧
    exec .esReserved13 s = .fault .reservedPhase ∧ exec .esReserved14 s = .fault .reservedPhase ∧
    exec .esReserved15 s = .fault .reservedPhase ∧
    (9 ≤ s.phase.toNat → s.inputs.head? ≠ some .reset → step s = .fault .reservedPhase) ∧
    State.reset.phase.toNat ≤ 8 ∧ (∀ t, s.phase.toNat ≤ 8 → step s = .next t → t.phase.toNat ≤ 8)

/-- The model fault INVARIANT: a step whose counter names no word, round or block (60_exceptions.md R243, R246; the model's
choice of the executed checks, log entry 9). -/
def Obligations.CountersOutOfRangeFault : Prop :=
  ∀ (s : State),
    (s.nblk.toNat ≤ s.blk.toNat → exec .esLoad s = .fault .invariant) ∧
    (s.t.toNat < 16 ∨ 64 ≤ s.t.toNat → exec .esSched s = .fault .invariant) ∧
    (64 ≤ s.t.toNat → exec .esRound s = .fault .invariant)

/-! ## The bit functions and the ROMs -/

/-- rotr moves bit (i + n) mod 32 to bit i, and the logical right shift moves bit i + n to bit i, with zeros above
(41_scheduler.md R140, R141). -/
def Obligations.RotationAndShiftBitByBit : Prop :=
  ∀ (x : Word) (n : Nat), n ≤ 31 → ∀ i, i < 32 →
    (rotr x n).getLsbD i = x.getLsbD ((i + n) % 32) ∧
    (i + n ≤ 31 → (shr x n).getLsbD i = x.getLsbD (i + n)) ∧ (31 < i + n → (shr x n).getLsbD i = false)

/-- The four sigma functions, bit by bit (R142, R143; 42_compressor.md R163, R164). -/
def Obligations.SigmaFunctionsBitByBit : Prop :=
  ∀ (x : Word) (i : Nat), i < 32 →
    (smallSigma0 x).getLsbD i =
      ((x.getLsbD ((i + 7) % 32) ^^ x.getLsbD ((i + 18) % 32)) ^^ (decide (i + 3 ≤ 31) && x.getLsbD (i + 3))) ∧
    (smallSigma1 x).getLsbD i =
      ((x.getLsbD ((i + 17) % 32) ^^ x.getLsbD ((i + 19) % 32)) ^^ (decide (i + 10 ≤ 31) && x.getLsbD (i + 10))) ∧
    (bigSigma0 x).getLsbD i =
      ((x.getLsbD ((i + 2) % 32) ^^ x.getLsbD ((i + 13) % 32)) ^^ x.getLsbD ((i + 22) % 32)) ∧
    (bigSigma1 x).getLsbD i =
      ((x.getLsbD ((i + 6) % 32) ^^ x.getLsbD ((i + 11) % 32)) ^^ x.getLsbD ((i + 25) % 32))

/-- Ch chooses and Maj takes the majority, bit by bit (R165, R166). -/
def Obligations.ChoiceAndMajorityBitByBit : Prop :=
  ∀ (x y z : Word) (i : Nat), i < 32 →
    (ch x y z).getLsbD i = (if x.getLsbD i then y.getLsbD i else z.getLsbD i) ∧
    ((maj x y z).getLsbD i = true ↔ 2 ≤ (x.getLsbD i).toNat + (y.getLsbD i).toNat + (z.getLsbD i).toNat)

/-- IV[i] and K[t] are the first 32 bits of the fractional parts of the square roots of the first 8 primes and of the cube
roots of the first 64 (R161, R162): r is the integer root of p * 2^64 or p * 2^96. -/
def Obligations.RomsAreFractionsOfRoots : Prop :=
  (∀ p, p ∈ firstPrimes ↔ Nat.Prime p ∧ p ≤ 311) ∧ firstPrimes.Pairwise (fun p q => p < q) ∧
  (∀ i, (hi : i < 8) → ∃ p r, firstPrimes[i]? = some p ∧ r * r ≤ p * 2 ^ 64 ∧ p * 2 ^ 64 < (r + 1) * (r + 1) ∧
    (ivRom[i]).toNat = r % 2 ^ 32) ∧
  (∀ t, (ht : t < 64) → ∃ p r, firstPrimes[t]? = some p ∧ r ^ 3 ≤ p * 2 ^ 96 ∧ p * 2 ^ 96 < (r + 1) ^ 3 ∧
    (kRom[t]).toNat = r % 2 ^ 32)

/-! ## Errors, reset, and the rules about the whole machine -/

/-- The error entry writes ERR and PHASE and nothing else, and no DIGEST register is readable after it (60_exceptions.md
R250). That the engine's turn in ERROR, where R250 gives it no step, is a next state that changes nothing is the model's choice
(log entry 11). -/
def Obligations.ErrorEntryWritesErrAndPhaseOnly : Prop :=
  ∀ (s : State) (e : ErrCode),
    (raiseError e s).err = e.code ∧ (raiseError e s).phase = 8 ∧
    s.SameEngine (raiseError e s) ∧ s.SameMessage (raiseError e s) ∧ s.SameHostSide (raiseError e s) ∧
    (∀ i, digestWord (raiseError e s) i = 0) ∧
    ((raiseError e s).engineNext → step (raiseError e s) = .next { raiseError e s with inputs := s.restInputs })

/-- PHASE and ERR move only by the transition table (43_digest.md R190; 10_state.md R29): whatever the next event is, a
step that answers a next state leaves the phase and the code the table gives. Two rows are not R190's and are the model's
choice: the engine's turn in a quiescent phase (log entry 11), and FOLD with BLK + 1 > NBLK (log entry 17). From a PHASE of 9..15
only the reset input answers a next state (log entry 16). -/
def Obligations.PhaseAndErrMoveOnlyByTheTable : Prop :=
  ∀ (s t : State), step s = .next t → t.phase = tablePhase s ∧ t.err = tableErr s

/-- What reset leaves (70_reset_and_hazards.md R270, R271), at State.reset and after the reset input in any phase, of a
running job too. The registers R270 leaves unspecified are not in this statement. That MSG_CAP, the events to come and the last
read value stay is the model's choice (log entry 6). -/
def Obligations.ResetLeavesTheRuledValues : Prop :=
  (State.reset.phase = 0 ∧ State.reset.err = 0 ∧ State.reset.msgLen = 0 ∧ (∀ j, State.reset.mem.read j = none) ∧
    statusWord State.reset = 0 ∧ ∀ i, digestWord State.reset i = 0) ∧
  ∀ (s : State) (es : List Event), s.inputs = .reset :: es →
    ∃ t, step s = .next t ∧ t.phase = 0 ∧ t.err = 0 ∧ t.msgLen = 0 ∧ (∀ j, t.mem.read j = none) ∧
      statusWord t = 0 ∧ (∀ i, digestWord t i = 0) ∧ t.msgCap = s.msgCap ∧ t.inputs = es ∧ t.rdata = s.rdata

/-- The invariant holds at reset. -/
def Obligations.InvariantHoldsAtReset : Prop := State.reset.Inv

/-- Every step keeps the invariant, whatever the events to come (40_padder.md R118; 10_state.md R24, R25, R28;
60_exceptions.md R241, R243; 20_memory.md R56). -/
def Obligations.EveryStepKeepsTheInvariant : Prop :=
  ∀ (s t : State), s.Inv → step s = .next t → t.Inv

/-- From a state with the invariant a step stops in one way only: LOAD reads an unwritten message byte. RESERVED_PHASE and
INVARIANT are unreachable (30_encoding.md R89; 60_exceptions.md R243, R246). -/
def Obligations.OnlyUnwrittenReadsStopTheMachine : Prop :=
  ∀ (s : State), s.Inv →
    (∃ t, step s = .next t) ∨
    (∃ j, step s = .fault (.unwrittenRead j) ∧ s.phase = 2 ∧ j < s.msgLen.toNat ∧ s.mem.read j = none)

/-- From the accepted START until DONE or ERROR, MSG_LEN and MSGMEM keep their values under every event but reset
(20_memory.md R61). -/
def Obligations.InputsAreFrozenDuringAJob : Prop :=
  ∀ (s t : State), s.busy = true → s.inputs.head? ≠ some .reset → step s = .next t → s.SameMessage t

/-- An engine step writes neither MSG_LEN nor MSGMEM, and returns nothing to the host (20_memory.md R51; 40_padder.md
R120). -/
def Obligations.EngineNeverWritesTheMessage : Prop :=
  ∀ (s t : State), s.engineNext → step s = .next t →
    s.SameMessage t ∧ t.rdata = s.rdata ∧ t.draws = s.draws ∧ t.inputs = s.restInputs

/-- In DONE the digest stays readable until the host's next accepted command that leaves DONE, or reset (20_memory.md R62;
43_digest.md R193; 70_reset_and_hazards.md R285). -/
def Obligations.DigestStaysUntilTheNextCommand : Prop :=
  ∀ (s t : State), s.phase = 7 → step s = .next t → s.inputs.head? ≠ some .reset →
    (∀ word, s.inputs.head? = some (.host (.write word)) → TxWord.addr word = 0 → TxWord.data word = 0) →
    t.phase = 7 ∧ ∀ i, digestWord t i = digestWord s i

/-- START, or an illegal command, in DONE makes every DIGEST register read 0 from that write on, in PAD or ERROR, though H
keeps its value; NOP does not end visibility (R285). -/
def Obligations.ACommandInDoneHidesTheDigest : Prop :=
  ∀ (s : State) (word : TxWord) (es : List Event), s.phase = 7 → s.inputs = .host (.write word) :: es →
    TxWord.addr word = 0 →
    (TxWord.data word ≠ 0 → ∃ t, step s = .next t ∧ (t.phase = 1 ∨ t.phase = 8) ∧ (∀ i, digestWord t i = 0) ∧
      s.SameEngine t ∧ s.SameMessage t) ∧
    (TxWord.data word = 0 → ∃ t, step s = .next t ∧ ∀ i, digestWord t i = digestWord s i)

/-- The 32 digest bytes are h0..h7 as big-endian words, in order (43_digest.md R191, R192). -/
def Obligations.DigestBytesAreBigEndianWords : Prop :=
  ∀ (s : State), s.phase = 7 →
    (digestBytes s).length = 32 ∧
    ∀ n, (hn : n < 32) → ∃ b, (digestBytes s)[n]? = some b ∧
      b.toNat = (s.h[n / 4]'(by omega)).toNat / 2 ^ (24 - 8 * (n % 4)) % 256

/-! ## The job -/

/-- 48 SCHED steps compute the message schedule of the block in W[0..15] (41_scheduler.md R145, R146). With no event to come the
engine acts (the model's choice, log entry 3). -/
def Obligations.SchedPhaseComputesTheSchedule : Prop :=
  ∀ (s : State), s.phase = 3 → s.t = 16 → s.inputs = [] →
    ∃ t, runSteps 48 s = .next t ∧ t.phase = 4 ∧
      t.w.toList = refSchedule (s.w.toList.take 16) ∧ t.h = s.h ∧ t.blk = s.blk ∧ t.nblk = s.nblk

/-- CINIT, 64 ROUND steps and FOLD perform the compression function (42_compressor.md R160). With no event to come the engine
acts (the model's choice, log entry 3). -/
def Obligations.CompressorPerformsTheCompressionFunction : Prop :=
  ∀ (s : State), s.phase = 4 → s.inputs = [] →
    ∃ t, runSteps 66 s = .next t ∧ toVars t.h = refCompress (toVars s.h) s.w.toList ∧
      (t.phase = 7 ∨ t.phase = 2) ∧ t.blk = s.blk + 1 ∧ t.nblk = s.nblk

/-- A job over a written message advances under every event, in every interleaving with the host: it stays in progress with
the values SHA-256's equations give, or FOLD of the last block delivers the hash, or reset abandons it
(42_compressor.md R173, R174; 43_digest.md R196; 70_reset_and_hazards.md R271). -/
def Obligations.EveryEventAdvancesTheJob : Prop :=
  ∀ (msg : List Byte) (s : State), Config.legalMsgCap s.msgCap → s.Hashing msg →
    ∃ t, step s = .next t ∧
      (t.Hashing msg ∨ t.Hashed msg ∨ (s.inputs.head? = some .reset ∧ t.phase = 0))

/-- Each engine step of a job takes one from the steps left, which are 1 + 115 * NBLK at PAD and 0 at DONE, and no host
transaction changes them (43_digest.md R194). -/
def Obligations.EngineStepsCountDownTheJob : Prop :=
  ∀ (msg : List Byte) (s t : State), Config.legalMsgCap s.msgCap → s.Hashing msg → step s = .next t →
    (s.engineNext → t.stepsLeft + 1 = s.stepsLeft) ∧
    (∀ x es, s.inputs = .host x :: es → t.stepsLeft = s.stepsLeft) ∧
    (s.phase = 1 → s.stepsLeft = 1 + 115 * ((msg.length + 72) / 64)) ∧
    (t.phase = 7 → t.stepsLeft = 0)

/-- A job over a written message of L bytes reaches DONE after exactly 1 + 115 * NBLK engine steps, being busy before, and
its 32 digest bytes are those of SHA-256 (43_digest.md R194, R196). With no event to come the engine acts (the model's choice,
log entry 3). -/
def Obligations.JobDeliversTheDigest : Prop :=
  ∀ (msg : List Byte) (s : State), Config.legalMsgCap s.msgCap → s.HoldsMessage msg → s.phase = 1 → s.inputs = [] →
    (∃ t, runSteps (1 + 115 * ((msg.length + 72) / 64)) s = .next t ∧ t.phase = 7 ∧ digestBytes t = refDigest msg) ∧
    ∀ n, n < 1 + 115 * ((msg.length + 72) / 64) → ∃ t, runSteps n s = .next t ∧ t.busy = true

/-- A job over a written message ends in DONE with the 32 bytes of SHA-256, in every interleaving with the host that has no
reset in it, and is busy until then (43_digest.md R196; 20_memory.md R60; 42_compressor.md R174). An interleaving is a list of
events (the model's choice, log entry 3). -/
def Obligations.JobEndsInTheDigestInEveryInterleaving : Prop :=
  ∀ (msg : List Byte) (s : State), Config.legalMsgCap s.msgCap → s.HoldsMessage msg → s.phase = 1 →
    Event.reset ∉ s.inputs →
    ∃ n t, n ≤ s.inputs.length + (1 + 115 * ((msg.length + 72) / 64)) ∧ runSteps n s = .next t ∧
      t.phase = 7 ∧ digestBytes t = refDigest msg ∧ ∀ m, m < n → ∃ u, runSteps m s = .next u ∧ u.busy = true

/-- The host's sequence of 70_reset_and_hazards.md R272, from any state with the invariant that is not busy: load the
message, set the length, start, let the engine run; the core is then in DONE with the digest of the message. That the engine
runs when the script is over is the model's choice (log entry 3). -/
def Obligations.HostSequenceHashesTheMessage : Prop :=
  ∀ (msg : List Byte) (s : State), s.Inv → s.busy = false → msg.length ≤ s.msgCap → s.inputs = hashScript msg →
    ∃ t, runSteps ((hashScript msg).length + (1 + 115 * ((msg.length + 72) / 64))) s = .next t ∧
      t.phase = 7 ∧ statusWord t = 7 ∧ digestBytes t = refDigest msg

/-- After a START, and as long as no reset comes, no STATUS read shows IDLE (70_reset_and_hazards.md R284). -/
def Obligations.IdleReturnsOnlyByReset : Prop :=
  ∀ (s t : State) (n : Nat), s.phase ≠ 0 → Event.reset ∉ s.inputs → runSteps n s = .next t →
    t.phase ≠ 0 ∧ (statusWord t).toNat % 16 ≠ 0

/-- Two states that differ only in hidden registers a later step writes before it reads them stay so under every event: the
host reads the same values from both, and both stop alike (10_state.md R36; 42_compressor.md R174;
70_reset_and_hazards.md R270). -/
def Obligations.HostSameIsKeptByEveryStep : Prop :=
  ∀ (s u : State), s.HostSame u →
    (∀ t, step s = .next t → ∃ t', step u = .next t' ∧ t.HostSame t') ∧
    (∀ f, step s = .fault f → step u = .fault f)

/-- No host transaction can observe the values reset leaves unspecified (R270): with any other values in H, V, W, T, BLK and
NBLK, any number of steps of any order of events gives the host the same STATUS, the same digest and the same read value. -/
def Obligations.UnspecifiedResetValuesAreNeverSeen : Prop :=
  ∀ (s t : State) (h v : Vector Word 8) (w : Vector Word 64) (c : BitVec 7) (blk nblk : BitVec 64) (n : Nat),
    s.phase = 0 → runSteps n s = .next t →
    ∃ t', runSteps n (s.withHidden h v w c blk nblk) = .next t' ∧
      t'.rdata = t.rdata ∧ statusWord t' = statusWord t ∧ digestBytes t' = digestBytes t
end

