-- ==== Sys2Proof/Laws/Bits.lean ====
section
/-! SUPPORT. What the bit-field functions are as numbers: fields of a transaction word, offsets, big-endian words. -/

namespace Sys2Proof

/-- Concatenation, high part first, as a number (00_scope.md R10). -/
theorem toNat_append_eq {m n : Nat} (x : BitVec m) (y : BitVec n) :
    (x ++ y).toNat = x.toNat * 2 ^ n + y.toNat := by
  rw [BitVec.toNat_append, ← Nat.shiftLeft_add_eq_or_of_lt y.isLt, Nat.shiftLeft_eq]

/-- A bit field as a number. -/
theorem toNat_field {m : Nat} (x : BitVec m) (lo n : Nat) :
    (x.extractLsb' lo n).toNat = x.toNat / 2 ^ lo % 2 ^ n := by
  rw [BitVec.extractLsb'_toNat, Nat.shiftRight_eq_div_pow]

theorem TxWord.toNat_mk (a d : Word) : (TxWord.mk a d).toNat = a.toNat * 2 ^ 32 + d.toNat :=
  toNat_append_eq a d

theorem TxWord.toNat_addr (x : TxWord) : (TxWord.addr x).toNat = x.toNat / 2 ^ 32 := by
  have h := x.isLt
  rw [TxWord.addr, toNat_field]
  omega

theorem TxWord.toNat_data (x : TxWord) : (TxWord.data x).toNat = x.toNat % 2 ^ 32 := by
  rw [TxWord.data, toNat_field, Nat.pow_zero, Nat.div_one]

/-- The address of a transaction word survives the encoding. -/
@[simp] theorem TxWord.addr_mk (a d : Word) : TxWord.addr (TxWord.mk a d) = a := by
  apply BitVec.eq_of_toNat_eq
  rw [TxWord.toNat_addr, TxWord.toNat_mk]
  omega

/-- The data of a transaction word survives the encoding. -/
@[simp] theorem TxWord.data_mk (a d : Word) : TxWord.data (TxWord.mk a d) = d := by
  apply BitVec.eq_of_toNat_eq
  rw [TxWord.toNat_data, TxWord.toNat_mk]
  omega

/-- A transaction word is its address and its data (30_encoding.md R81). -/
theorem TxWord.mk_addr_data (x : TxWord) : TxWord.mk (TxWord.addr x) (TxWord.data x) = x := by
  apply BitVec.eq_of_toNat_eq
  rw [TxWord.toNat_mk, TxWord.toNat_addr, TxWord.toNat_data]
  omega

theorem toNat_offsetOf (a : BitVec 30) (low : BitVec 2) : (offsetOf a low).toNat = 4 * a.toNat + low.toNat := by
  have h : (offsetOf a low).toNat = a.toNat * 2 ^ 2 + low.toNat := toNat_append_eq a low
  omega

theorem toNat_digestOffset (i : BitVec 3) : (digestOffset i).toNat = 0x20 + 4 * i.toNat := by
  have h1 := toNat_append_eq ((1 : BitVec 27) ++ i) (0 : BitVec 2)
  have h2 := toNat_append_eq (1 : BitVec 27) i
  have h3 : (1 : BitVec 27).toNat = 1 := rfl
  have h4 : (0 : BitVec 2).toNat = 0 := rfl
  have h : (digestOffset i).toNat = ((1 : BitVec 27) ++ i ++ (0 : BitVec 2)).toNat := rfl
  rw [h, h1, h2, h3, h4]
  omega

/-- A window offset does not wrap, because the window lies inside the 32-bit offset space (00_scope.md R7). -/
theorem toNat_windowOffset {cap : Nat} {k : BitVec 30} (hc : Config.legalMsgCap cap) (hk : Instr.windowWord cap k) :
    (windowOffset k).toNat = 0x1000 + 4 * k.toNat := by
  have h0 : (0 : BitVec 2).toNat = 0 := rfl
  have h1 : (0x1000 : Word).toNat = 0x1000 := rfl
  rw [windowOffset, BitVec.toNat_add, toNat_offsetOf, h0, h1]
  have := hc.2.2
  unfold Instr.windowWord at hk
  omega

namespace Machine

/-- `BYTE_k(w)` as a number (00_scope.md R10). -/
theorem toNat_byteOf (k : Nat) (w : Word) : (byteOf k w).toNat = w.toNat / 2 ^ (24 - 8 * k) % 2 ^ 8 :=
  toNat_field _ _ _

/-- `BE32` as a number (R10). -/
theorem toNat_be32 (b0 b1 b2 b3 : Byte) :
    (be32 b0 b1 b2 b3).toNat = b0.toNat * 2 ^ 24 + b1.toNat * 2 ^ 16 + b2.toNat * 2 ^ 8 + b3.toNat := by
  have h1 := toNat_append_eq b0 b1
  have h2 := toNat_append_eq (b0 ++ b1) b2
  have h3 := toNat_append_eq (b0 ++ b1 ++ b2) b3
  rw [be32, h3, h2, h1]
  ring

/-- The four bytes of a word put together again are the word (R10). -/
@[simp] theorem be32_byteOf (d : Word) : be32 (byteOf 0 d) (byteOf 1 d) (byteOf 2 d) (byteOf 3 d) = d := by
  apply BitVec.eq_of_toNat_eq
  simp only [toNat_be32, toNat_byteOf]
  have := d.isLt
  omega

/-- The bytes of a big-endian word (R10). -/
theorem byteOf_be32 (b0 b1 b2 b3 : Byte) :
    byteOf 0 (be32 b0 b1 b2 b3) = b0 ∧ byteOf 1 (be32 b0 b1 b2 b3) = b1 ∧
    byteOf 2 (be32 b0 b1 b2 b3) = b2 ∧ byteOf 3 (be32 b0 b1 b2 b3) = b3 := by
  have h0 := b0.isLt
  have h1 := b1.isLt
  have h2 := b2.isLt
  have h3 := b3.isLt
  refine ⟨?_, ?_, ?_, ?_⟩ <;>
  · apply BitVec.eq_of_toNat_eq
    simp only [toNat_be32, toNat_byteOf]
    omega

end Machine

end Sys2Proof
end

