-- ==== Sys2Proof/Laws/Decode.lean ====
section
/-! SUPPORT. What the decode order of an offset answers (30_encoding.md R83), as cases and for each encoded offset, and what
each phase code decodes to (R88, R89). -/

namespace Sys2Proof

/-- A difference of words that does not wrap, as a number. -/
theorem toNat_sub_of_le {a : Word} (c : Word) (h : c.toNat ≤ a.toNat) : (a - c).toNat = a.toNat - c.toNat := by
  rw [BitVec.toNat_sub]
  have := a.isLt
  omega

/-- A misaligned offset is classified first (R83 case 1). -/
theorem classify_misaligned {cap : Nat} {a : Word} (h : a.toNat % 4 ≠ 0) :
    classify cap a = .misaligned (a.extractLsb' 0 2) (a.extractLsb' 2 30) := by
  unfold classify
  rw [if_pos]
  intro h0
  have h1 := congrArg BitVec.toNat h0
  rw [toNat_field] at h1
  simp at h1
  omega

/-- An aligned offset above the control registers falls under cases 6 to 8 (R83). -/
theorem classify_above {cap : Nat} {a : Word} (h : a.toNat % 4 = 0) (h1 : 0xC < a.toNat) :
    classify cap a =
      if 0x20 ≤ a.toNat ∧ a.toNat ≤ 0x3C then .digest ((a - 0x20).extractLsb' 2 3)
      else if 0x1000 ≤ a.toNat ∧ a.toNat < 0x1000 + cap then .msgwin ((a - 0x1000).extractLsb' 2 30)
      else .reserved (a.extractLsb' 2 30) := by
  have h0 : a.extractLsb' 0 2 = 0 := by
    apply BitVec.eq_of_toNat_eq
    rw [toNat_field]
    simp
    omega
  unfold classify
  rw [if_neg (not_not.mpr h0), if_neg, if_neg, if_neg, if_neg]
  all_goals
    rintro rfl
    simp at h1

theorem classify_offsetOf (cap : Nat) (a : BitVec 30) {low : BitVec 2} (h : low ≠ 0) :
    classify cap (offsetOf a low) = .misaligned low a := by
  have hl : low.toNat ≠ 0 := fun h0 => h (BitVec.eq_of_toNat_eq h0)
  have h1 := low.isLt
  have h2 := toNat_offsetOf a low
  rw [classify_misaligned (by omega)]
  congr 1 <;> apply BitVec.eq_of_toNat_eq <;> rw [toNat_field] <;> omega

theorem classify_digestOffset (cap : Nat) (i : BitVec 3) : classify cap (digestOffset i) = .digest i := by
  have h1 := toNat_digestOffset i
  have h2 := i.isLt
  have h3 : (0x20 : Word).toNat = 0x20 := rfl
  rw [classify_above (by omega) (by omega), if_pos (by omega)]
  congr 1
  apply BitVec.eq_of_toNat_eq
  rw [toNat_field, toNat_sub_of_le _ (by omega)]
  omega

theorem classify_windowOffset {cap : Nat} {k : BitVec 30} (hc : Config.legalMsgCap cap) (hk : Instr.windowWord cap k) :
    classify cap (windowOffset k) = .msgwin k := by
  have h1 := toNat_windowOffset hc hk
  have h2 := k.isLt
  have h3 : (0x1000 : Word).toNat = 0x1000 := rfl
  unfold Instr.windowWord at hk
  rw [classify_above (by omega) (by omega), if_neg (by omega), if_pos (by omega)]
  congr 1
  apply BitVec.eq_of_toNat_eq
  rw [toNat_field, toNat_sub_of_le _ (by omega)]
  omega

theorem classify_reservedOffset {cap : Nat} {a : BitVec 30} (hc : Config.legalMsgCap cap)
    (ha : Instr.reservedOffset cap a) : classify cap (offsetOf a 0) = .reserved a := by
  have h1 := toNat_offsetOf a 0
  have h2 : (0 : BitVec 2).toNat = 0 := rfl
  have h3 := a.isLt
  have h4 := hc.2.1
  unfold Instr.reservedOffset at ha
  rw [classify_above (by omega) (by omega), if_neg (by omega), if_neg (by omega)]
  congr 1
  apply BitVec.eq_of_toNat_eq
  rw [toNat_field]
  omega

/-- A two-bit alignment that is not 0 is 1, 2 or 3. -/
theorem low_cases {low : BitVec 2} (h : low ≠ 0) : low = 1 ∨ low = 2 ∨ low = 3 := by
  revert h low
  decide

/-- Every target of an offset, with the offset it is the target of (R83). -/
theorem classify_cases {cap : Nat} (hc : Config.legalMsgCap cap) (a : Word) :
    (∃ low hi, classify cap a = .misaligned low hi ∧ low ≠ 0 ∧ a = offsetOf hi low) ∨
    (classify cap a = .cmd ∧ a = 0) ∨ (classify cap a = .status ∧ a = 4) ∨
    (classify cap a = .msgLenLo ∧ a = 8) ∨ (classify cap a = .msgLenHi ∧ a = 0xC) ∨
    (∃ i, classify cap a = .digest i ∧ a = digestOffset i) ∨
    (∃ k, classify cap a = .msgwin k ∧ a = windowOffset k ∧ Instr.windowWord cap k) ∨
    (∃ hi, classify cap a = .reserved hi ∧ a = offsetOf hi 0 ∧ Instr.reservedOffset cap hi) := by
  have ha := a.isLt
  have h20 : (0x20 : Word).toNat = 0x20 := rfl
  have h1000 : (0x1000 : Word).toNat = 0x1000 := rfl
  have hz : (0 : BitVec 2).toNat = 0 := rfl
  obtain ⟨hc1, hc2, hc3⟩ := hc
  by_cases hm : a.toNat % 4 ≠ 0
  · refine .inl ⟨_, _, classify_misaligned hm, ?_, ?_⟩
    · intro h0
      have h1 := congrArg BitVec.toNat h0
      rw [toNat_field] at h1
      simp at h1
      omega
    · apply BitVec.eq_of_toNat_eq
      rw [toNat_offsetOf, toNat_field, toNat_field]
      omega
  rw [not_not] at hm
  right
  by_cases h0 : a.toNat = 0
  · obtain rfl : a = 0 := BitVec.eq_of_toNat_eq h0
    exact .inl ⟨rfl, rfl⟩
  right
  by_cases h4 : a.toNat = 4
  · obtain rfl : a = 4 := BitVec.eq_of_toNat_eq h4
    exact .inl ⟨rfl, rfl⟩
  right
  by_cases h8 : a.toNat = 8
  · obtain rfl : a = 8 := BitVec.eq_of_toNat_eq h8
    exact .inl ⟨rfl, rfl⟩
  right
  by_cases hC : a.toNat = 0xC
  · obtain rfl : a = 0xC := BitVec.eq_of_toNat_eq hC
    exact .inl ⟨rfl, rfl⟩
  right
  rw [classify_above hm (by omega)]
  by_cases hd : 0x20 ≤ a.toNat ∧ a.toNat ≤ 0x3C
  · rw [if_pos hd]
    refine .inl ⟨_, rfl, ?_⟩
    apply BitVec.eq_of_toNat_eq
    rw [toNat_digestOffset, toNat_field, toNat_sub_of_le _ (by omega)]
    omega
  right
  rw [if_neg hd]
  by_cases hw : 0x1000 ≤ a.toNat ∧ a.toNat < 0x1000 + cap
  · rw [if_pos hw]
    have hk : ((a - 0x1000).extractLsb' 2 30).toNat = (a.toNat - 0x1000) / 4 := by
      rw [toNat_field, toNat_sub_of_le _ (by omega)]
      omega
    have hkw : Instr.windowWord cap ((a - 0x1000).extractLsb' 2 30) := by
      unfold Instr.windowWord
      omega
    refine .inl ⟨_, rfl, ?_, hkw⟩
    apply BitVec.eq_of_toNat_eq
    rw [toNat_windowOffset ⟨hc1, hc2, hc3⟩ hkw]
    omega
  right
  rw [if_neg hw]
  have hk : (a.extractLsb' 2 30).toNat = a.toNat / 4 := by
    rw [toNat_field]
    omega
  refine ⟨_, rfl, ?_, ?_⟩
  · apply BitVec.eq_of_toNat_eq
    rw [toNat_offsetOf]
    omega
  · unfold Instr.reservedOffset
    omega

/-- Every 4-bit code is a named phase's or one of 9..15 (R88, R89). -/
theorem phase_cases (p : BitVec 4) : (∃ q : Phase, p = q.code) ∨ 9 ≤ p.toNat := by
  have h : ∀ p : BitVec 4, p.toNat < 9 →
      ∃ q ∈ [Phase.idle, .pad, .load, .sched, .cinit, .round, .fold, .done, .error], p = q.code := by decide
  by_cases hp : p.toNat < 9
  · obtain ⟨q, -, hq⟩ := h p hp
    exact .inl ⟨q, hq⟩
  · exact .inr (by omega)

/-- The engine's instruction, by the phase (R88). -/
theorem decodeEngine_code (p : Phase) :
    decodeEngine p.code = match p with
      | .idle => .esIdle | .pad => .esPad | .load => .esLoad | .sched => .esSched | .cinit => .esCinit
      | .round => .esRound | .fold => .esFold | .done => .esDone | .error => .esError := by
  cases p <;> decide

/-- The codes 9..15 decode to the reserved rows (R89). -/
theorem decodeEngine_reserved {p : BitVec 4} (hp : 9 ≤ p.toNat) :
    decodeEngine p ∈ [Instr.esReserved9, .esReserved10, .esReserved11, .esReserved12, .esReserved13,
      .esReserved14, .esReserved15] := by
  revert hp p
  decide

end Sys2Proof
end

