-- ==== Sys2Proof/Laws/State.lean ====
section
/-! SUPPORT. One lemma per field for each update of State and for each shared update of the whole state, so that no proof
unfolds a record update. -/

namespace Sys2Proof.Machine

variable (s : State)

/-! ## withInputs -/

@[simp] theorem State.withInputs_h (es : List Event) : (s.withInputs es).h = s.h := rfl
@[simp] theorem State.withInputs_v (es : List Event) : (s.withInputs es).v = s.v := rfl
@[simp] theorem State.withInputs_w (es : List Event) : (s.withInputs es).w = s.w := rfl
@[simp] theorem State.withInputs_t (es : List Event) : (s.withInputs es).t = s.t := rfl
@[simp] theorem State.withInputs_blk (es : List Event) : (s.withInputs es).blk = s.blk := rfl
@[simp] theorem State.withInputs_nblk (es : List Event) : (s.withInputs es).nblk = s.nblk := rfl
@[simp] theorem State.withInputs_phase (es : List Event) : (s.withInputs es).phase = s.phase := rfl
@[simp] theorem State.withInputs_err (es : List Event) : (s.withInputs es).err = s.err := rfl
@[simp] theorem State.withInputs_msgLen (es : List Event) : (s.withInputs es).msgLen = s.msgLen := rfl
@[simp] theorem State.withInputs_mem (es : List Event) : (s.withInputs es).mem = s.mem := rfl
@[simp] theorem State.withInputs_msgCap (es : List Event) : (s.withInputs es).msgCap = s.msgCap := rfl
@[simp] theorem State.withInputs_inputs (es : List Event) : (s.withInputs es).inputs = es := rfl
@[simp] theorem State.withInputs_rdata (es : List Event) : (s.withInputs es).rdata = s.rdata := rfl
@[simp] theorem State.withInputs_draws (es : List Event) : (s.withInputs es).draws = s.draws := rfl

/-! ## withRdata -/

@[simp] theorem State.withRdata_h (x : Word) : (s.withRdata x).h = s.h := rfl
@[simp] theorem State.withRdata_v (x : Word) : (s.withRdata x).v = s.v := rfl
@[simp] theorem State.withRdata_w (x : Word) : (s.withRdata x).w = s.w := rfl
@[simp] theorem State.withRdata_t (x : Word) : (s.withRdata x).t = s.t := rfl
@[simp] theorem State.withRdata_blk (x : Word) : (s.withRdata x).blk = s.blk := rfl
@[simp] theorem State.withRdata_nblk (x : Word) : (s.withRdata x).nblk = s.nblk := rfl
@[simp] theorem State.withRdata_phase (x : Word) : (s.withRdata x).phase = s.phase := rfl
@[simp] theorem State.withRdata_err (x : Word) : (s.withRdata x).err = s.err := rfl
@[simp] theorem State.withRdata_msgLen (x : Word) : (s.withRdata x).msgLen = s.msgLen := rfl
@[simp] theorem State.withRdata_mem (x : Word) : (s.withRdata x).mem = s.mem := rfl
@[simp] theorem State.withRdata_msgCap (x : Word) : (s.withRdata x).msgCap = s.msgCap := rfl
@[simp] theorem State.withRdata_inputs (x : Word) : (s.withRdata x).inputs = s.inputs := rfl
@[simp] theorem State.withRdata_rdata (x : Word) : (s.withRdata x).rdata = x := rfl
@[simp] theorem State.withRdata_draws (x : Word) : (s.withRdata x).draws = s.draws := rfl

/-! ## withPhase -/

@[simp] theorem State.withPhase_h (p : Phase) : (s.withPhase p).h = s.h := rfl
@[simp] theorem State.withPhase_v (p : Phase) : (s.withPhase p).v = s.v := rfl
@[simp] theorem State.withPhase_w (p : Phase) : (s.withPhase p).w = s.w := rfl
@[simp] theorem State.withPhase_t (p : Phase) : (s.withPhase p).t = s.t := rfl
@[simp] theorem State.withPhase_blk (p : Phase) : (s.withPhase p).blk = s.blk := rfl
@[simp] theorem State.withPhase_nblk (p : Phase) : (s.withPhase p).nblk = s.nblk := rfl
@[simp] theorem State.withPhase_phase (p : Phase) : (s.withPhase p).phase = p.code := rfl
@[simp] theorem State.withPhase_err (p : Phase) : (s.withPhase p).err = s.err := rfl
@[simp] theorem State.withPhase_msgLen (p : Phase) : (s.withPhase p).msgLen = s.msgLen := rfl
@[simp] theorem State.withPhase_mem (p : Phase) : (s.withPhase p).mem = s.mem := rfl
@[simp] theorem State.withPhase_msgCap (p : Phase) : (s.withPhase p).msgCap = s.msgCap := rfl
@[simp] theorem State.withPhase_inputs (p : Phase) : (s.withPhase p).inputs = s.inputs := rfl
@[simp] theorem State.withPhase_rdata (p : Phase) : (s.withPhase p).rdata = s.rdata := rfl
@[simp] theorem State.withPhase_draws (p : Phase) : (s.withPhase p).draws = s.draws := rfl

/-! ## withErr -/

@[simp] theorem State.withErr_h (e : ErrCode) : (s.withErr e).h = s.h := rfl
@[simp] theorem State.withErr_v (e : ErrCode) : (s.withErr e).v = s.v := rfl
@[simp] theorem State.withErr_w (e : ErrCode) : (s.withErr e).w = s.w := rfl
@[simp] theorem State.withErr_t (e : ErrCode) : (s.withErr e).t = s.t := rfl
@[simp] theorem State.withErr_blk (e : ErrCode) : (s.withErr e).blk = s.blk := rfl
@[simp] theorem State.withErr_nblk (e : ErrCode) : (s.withErr e).nblk = s.nblk := rfl
@[simp] theorem State.withErr_phase (e : ErrCode) : (s.withErr e).phase = s.phase := rfl
@[simp] theorem State.withErr_err (e : ErrCode) : (s.withErr e).err = e.code := rfl
@[simp] theorem State.withErr_msgLen (e : ErrCode) : (s.withErr e).msgLen = s.msgLen := rfl
@[simp] theorem State.withErr_mem (e : ErrCode) : (s.withErr e).mem = s.mem := rfl
@[simp] theorem State.withErr_msgCap (e : ErrCode) : (s.withErr e).msgCap = s.msgCap := rfl
@[simp] theorem State.withErr_inputs (e : ErrCode) : (s.withErr e).inputs = s.inputs := rfl
@[simp] theorem State.withErr_rdata (e : ErrCode) : (s.withErr e).rdata = s.rdata := rfl
@[simp] theorem State.withErr_draws (e : ErrCode) : (s.withErr e).draws = s.draws := rfl

/-! ## withMsgLen -/

@[simp] theorem State.withMsgLen_h (x : BitVec 64) : (s.withMsgLen x).h = s.h := rfl
@[simp] theorem State.withMsgLen_v (x : BitVec 64) : (s.withMsgLen x).v = s.v := rfl
@[simp] theorem State.withMsgLen_w (x : BitVec 64) : (s.withMsgLen x).w = s.w := rfl
@[simp] theorem State.withMsgLen_t (x : BitVec 64) : (s.withMsgLen x).t = s.t := rfl
@[simp] theorem State.withMsgLen_blk (x : BitVec 64) : (s.withMsgLen x).blk = s.blk := rfl
@[simp] theorem State.withMsgLen_nblk (x : BitVec 64) : (s.withMsgLen x).nblk = s.nblk := rfl
@[simp] theorem State.withMsgLen_phase (x : BitVec 64) : (s.withMsgLen x).phase = s.phase := rfl
@[simp] theorem State.withMsgLen_err (x : BitVec 64) : (s.withMsgLen x).err = s.err := rfl
@[simp] theorem State.withMsgLen_msgLen (x : BitVec 64) : (s.withMsgLen x).msgLen = x := rfl
@[simp] theorem State.withMsgLen_mem (x : BitVec 64) : (s.withMsgLen x).mem = s.mem := rfl
@[simp] theorem State.withMsgLen_msgCap (x : BitVec 64) : (s.withMsgLen x).msgCap = s.msgCap := rfl
@[simp] theorem State.withMsgLen_inputs (x : BitVec 64) : (s.withMsgLen x).inputs = s.inputs := rfl
@[simp] theorem State.withMsgLen_rdata (x : BitVec 64) : (s.withMsgLen x).rdata = s.rdata := rfl
@[simp] theorem State.withMsgLen_draws (x : BitVec 64) : (s.withMsgLen x).draws = s.draws := rfl

/-! ## withMem -/

@[simp] theorem State.withMem_h (m : Memory) : (s.withMem m).h = s.h := rfl
@[simp] theorem State.withMem_v (m : Memory) : (s.withMem m).v = s.v := rfl
@[simp] theorem State.withMem_w (m : Memory) : (s.withMem m).w = s.w := rfl
@[simp] theorem State.withMem_t (m : Memory) : (s.withMem m).t = s.t := rfl
@[simp] theorem State.withMem_blk (m : Memory) : (s.withMem m).blk = s.blk := rfl
@[simp] theorem State.withMem_nblk (m : Memory) : (s.withMem m).nblk = s.nblk := rfl
@[simp] theorem State.withMem_phase (m : Memory) : (s.withMem m).phase = s.phase := rfl
@[simp] theorem State.withMem_err (m : Memory) : (s.withMem m).err = s.err := rfl
@[simp] theorem State.withMem_msgLen (m : Memory) : (s.withMem m).msgLen = s.msgLen := rfl
@[simp] theorem State.withMem_mem (m : Memory) : (s.withMem m).mem = m := rfl
@[simp] theorem State.withMem_msgCap (m : Memory) : (s.withMem m).msgCap = s.msgCap := rfl
@[simp] theorem State.withMem_inputs (m : Memory) : (s.withMem m).inputs = s.inputs := rfl
@[simp] theorem State.withMem_rdata (m : Memory) : (s.withMem m).rdata = s.rdata := rfl
@[simp] theorem State.withMem_draws (m : Memory) : (s.withMem m).draws = s.draws := rfl

/-! ## drawn -/

@[simp] theorem State.drawn_h (n : Nat) : (s.drawn n).h = s.h := rfl
@[simp] theorem State.drawn_v (n : Nat) : (s.drawn n).v = s.v := rfl
@[simp] theorem State.drawn_w (n : Nat) : (s.drawn n).w = s.w := rfl
@[simp] theorem State.drawn_t (n : Nat) : (s.drawn n).t = s.t := rfl
@[simp] theorem State.drawn_blk (n : Nat) : (s.drawn n).blk = s.blk := rfl
@[simp] theorem State.drawn_nblk (n : Nat) : (s.drawn n).nblk = s.nblk := rfl
@[simp] theorem State.drawn_phase (n : Nat) : (s.drawn n).phase = s.phase := rfl
@[simp] theorem State.drawn_err (n : Nat) : (s.drawn n).err = s.err := rfl
@[simp] theorem State.drawn_msgLen (n : Nat) : (s.drawn n).msgLen = s.msgLen := rfl
@[simp] theorem State.drawn_mem (n : Nat) : (s.drawn n).mem = s.mem := rfl
@[simp] theorem State.drawn_msgCap (n : Nat) : (s.drawn n).msgCap = s.msgCap := rfl
@[simp] theorem State.drawn_inputs (n : Nat) : (s.drawn n).inputs = s.inputs := rfl
@[simp] theorem State.drawn_rdata (n : Nat) : (s.drawn n).rdata = s.rdata := rfl
@[simp] theorem State.drawn_draws (n : Nat) : (s.drawn n).draws = s.draws + n := rfl

/-! ## raiseError -/

@[simp] theorem raiseError_h (code : ErrCode) : (raiseError code s).h = s.h := rfl
@[simp] theorem raiseError_v (code : ErrCode) : (raiseError code s).v = s.v := rfl
@[simp] theorem raiseError_w (code : ErrCode) : (raiseError code s).w = s.w := rfl
@[simp] theorem raiseError_t (code : ErrCode) : (raiseError code s).t = s.t := rfl
@[simp] theorem raiseError_blk (code : ErrCode) : (raiseError code s).blk = s.blk := rfl
@[simp] theorem raiseError_nblk (code : ErrCode) : (raiseError code s).nblk = s.nblk := rfl
@[simp] theorem raiseError_phase (code : ErrCode) : (raiseError code s).phase = Phase.error.code := rfl
@[simp] theorem raiseError_err (code : ErrCode) : (raiseError code s).err = code.code := rfl
@[simp] theorem raiseError_msgLen (code : ErrCode) : (raiseError code s).msgLen = s.msgLen := rfl
@[simp] theorem raiseError_mem (code : ErrCode) : (raiseError code s).mem = s.mem := rfl
@[simp] theorem raiseError_msgCap (code : ErrCode) : (raiseError code s).msgCap = s.msgCap := rfl
@[simp] theorem raiseError_inputs (code : ErrCode) : (raiseError code s).inputs = s.inputs := rfl
@[simp] theorem raiseError_rdata (code : ErrCode) : (raiseError code s).rdata = s.rdata := rfl
@[simp] theorem raiseError_draws (code : ErrCode) : (raiseError code s).draws = s.draws := rfl

/-! ## beginJob -/

@[simp] theorem beginJob_h : (beginJob s).h = s.h := rfl
@[simp] theorem beginJob_v : (beginJob s).v = s.v := rfl
@[simp] theorem beginJob_w : (beginJob s).w = s.w := rfl
@[simp] theorem beginJob_t : (beginJob s).t = s.t := rfl
@[simp] theorem beginJob_blk : (beginJob s).blk = s.blk := rfl
@[simp] theorem beginJob_nblk : (beginJob s).nblk = s.nblk := rfl
@[simp] theorem beginJob_phase : (beginJob s).phase = Phase.pad.code := rfl
@[simp] theorem beginJob_err : (beginJob s).err = ErrCode.noError.code := rfl
@[simp] theorem beginJob_msgLen : (beginJob s).msgLen = s.msgLen := rfl
@[simp] theorem beginJob_mem : (beginJob s).mem = s.mem := rfl
@[simp] theorem beginJob_msgCap : (beginJob s).msgCap = s.msgCap := rfl
@[simp] theorem beginJob_inputs : (beginJob s).inputs = s.inputs := rfl
@[simp] theorem beginJob_rdata : (beginJob s).rdata = s.rdata := rfl
@[simp] theorem beginJob_draws : (beginJob s).draws = s.draws := rfl

/-! ## noEffect -/

@[simp] theorem noEffect_h : (noEffect s).h = s.h := rfl
@[simp] theorem noEffect_v : (noEffect s).v = s.v := rfl
@[simp] theorem noEffect_w : (noEffect s).w = s.w := rfl
@[simp] theorem noEffect_t : (noEffect s).t = s.t := rfl
@[simp] theorem noEffect_blk : (noEffect s).blk = s.blk := rfl
@[simp] theorem noEffect_nblk : (noEffect s).nblk = s.nblk := rfl
@[simp] theorem noEffect_phase : (noEffect s).phase = s.phase := rfl
@[simp] theorem noEffect_err : (noEffect s).err = s.err := rfl
@[simp] theorem noEffect_msgLen : (noEffect s).msgLen = s.msgLen := rfl
@[simp] theorem noEffect_mem : (noEffect s).mem = s.mem := rfl
@[simp] theorem noEffect_msgCap : (noEffect s).msgCap = s.msgCap := rfl
@[simp] theorem noEffect_inputs : (noEffect s).inputs = s.inputs := rfl
@[simp] theorem noEffect_rdata : (noEffect s).rdata = s.rdata := rfl
@[simp] theorem noEffect_draws : (noEffect s).draws = s.draws := rfl

/-! ## readReturns -/

@[simp] theorem readReturns_h (x : Word) : (readReturns x s).h = s.h := rfl
@[simp] theorem readReturns_v (x : Word) : (readReturns x s).v = s.v := rfl
@[simp] theorem readReturns_w (x : Word) : (readReturns x s).w = s.w := rfl
@[simp] theorem readReturns_t (x : Word) : (readReturns x s).t = s.t := rfl
@[simp] theorem readReturns_blk (x : Word) : (readReturns x s).blk = s.blk := rfl
@[simp] theorem readReturns_nblk (x : Word) : (readReturns x s).nblk = s.nblk := rfl
@[simp] theorem readReturns_phase (x : Word) : (readReturns x s).phase = s.phase := rfl
@[simp] theorem readReturns_err (x : Word) : (readReturns x s).err = s.err := rfl
@[simp] theorem readReturns_msgLen (x : Word) : (readReturns x s).msgLen = s.msgLen := rfl
@[simp] theorem readReturns_mem (x : Word) : (readReturns x s).mem = s.mem := rfl
@[simp] theorem readReturns_msgCap (x : Word) : (readReturns x s).msgCap = s.msgCap := rfl
@[simp] theorem readReturns_inputs (x : Word) : (readReturns x s).inputs = s.inputs := rfl
@[simp] theorem readReturns_rdata (x : Word) : (readReturns x s).rdata = x := rfl
@[simp] theorem readReturns_draws (x : Word) : (readReturns x s).draws = s.draws := rfl

/-! ## setMsgLenLo -/

@[simp] theorem setMsgLenLo_h (d : Word) : (setMsgLenLo d s).h = s.h := rfl
@[simp] theorem setMsgLenLo_v (d : Word) : (setMsgLenLo d s).v = s.v := rfl
@[simp] theorem setMsgLenLo_w (d : Word) : (setMsgLenLo d s).w = s.w := rfl
@[simp] theorem setMsgLenLo_t (d : Word) : (setMsgLenLo d s).t = s.t := rfl
@[simp] theorem setMsgLenLo_blk (d : Word) : (setMsgLenLo d s).blk = s.blk := rfl
@[simp] theorem setMsgLenLo_nblk (d : Word) : (setMsgLenLo d s).nblk = s.nblk := rfl
@[simp] theorem setMsgLenLo_phase (d : Word) : (setMsgLenLo d s).phase = s.phase := rfl
@[simp] theorem setMsgLenLo_err (d : Word) : (setMsgLenLo d s).err = s.err := rfl
@[simp] theorem setMsgLenLo_msgLen (d : Word) : (setMsgLenLo d s).msgLen = msgLenHi s ++ d := rfl
@[simp] theorem setMsgLenLo_mem (d : Word) : (setMsgLenLo d s).mem = s.mem := rfl
@[simp] theorem setMsgLenLo_msgCap (d : Word) : (setMsgLenLo d s).msgCap = s.msgCap := rfl
@[simp] theorem setMsgLenLo_inputs (d : Word) : (setMsgLenLo d s).inputs = s.inputs := rfl
@[simp] theorem setMsgLenLo_rdata (d : Word) : (setMsgLenLo d s).rdata = s.rdata := rfl
@[simp] theorem setMsgLenLo_draws (d : Word) : (setMsgLenLo d s).draws = s.draws := rfl

/-! ## setMsgLenHi -/

@[simp] theorem setMsgLenHi_h (d : Word) : (setMsgLenHi d s).h = s.h := rfl
@[simp] theorem setMsgLenHi_v (d : Word) : (setMsgLenHi d s).v = s.v := rfl
@[simp] theorem setMsgLenHi_w (d : Word) : (setMsgLenHi d s).w = s.w := rfl
@[simp] theorem setMsgLenHi_t (d : Word) : (setMsgLenHi d s).t = s.t := rfl
@[simp] theorem setMsgLenHi_blk (d : Word) : (setMsgLenHi d s).blk = s.blk := rfl
@[simp] theorem setMsgLenHi_nblk (d : Word) : (setMsgLenHi d s).nblk = s.nblk := rfl
@[simp] theorem setMsgLenHi_phase (d : Word) : (setMsgLenHi d s).phase = s.phase := rfl
@[simp] theorem setMsgLenHi_err (d : Word) : (setMsgLenHi d s).err = s.err := rfl
@[simp] theorem setMsgLenHi_msgLen (d : Word) : (setMsgLenHi d s).msgLen = d ++ msgLenLo s := rfl
@[simp] theorem setMsgLenHi_mem (d : Word) : (setMsgLenHi d s).mem = s.mem := rfl
@[simp] theorem setMsgLenHi_msgCap (d : Word) : (setMsgLenHi d s).msgCap = s.msgCap := rfl
@[simp] theorem setMsgLenHi_inputs (d : Word) : (setMsgLenHi d s).inputs = s.inputs := rfl
@[simp] theorem setMsgLenHi_rdata (d : Word) : (setMsgLenHi d s).rdata = s.rdata := rfl
@[simp] theorem setMsgLenHi_draws (d : Word) : (setMsgLenHi d s).draws = s.draws := rfl

/-! ## beginBlocks -/

@[simp] theorem beginBlocks_h : (beginBlocks s).h = ivRom := rfl
@[simp] theorem beginBlocks_v : (beginBlocks s).v = s.v := rfl
@[simp] theorem beginBlocks_w : (beginBlocks s).w = s.w := rfl
@[simp] theorem beginBlocks_t : (beginBlocks s).t = s.t := rfl
@[simp] theorem beginBlocks_blk : (beginBlocks s).blk = 0 := rfl
@[simp] theorem beginBlocks_nblk : (beginBlocks s).nblk = BitVec.ofNat 64 (blockCount s.msgLen.toNat) := rfl
@[simp] theorem beginBlocks_phase : (beginBlocks s).phase = Phase.load.code := rfl
@[simp] theorem beginBlocks_err : (beginBlocks s).err = s.err := rfl
@[simp] theorem beginBlocks_msgLen : (beginBlocks s).msgLen = s.msgLen := rfl
@[simp] theorem beginBlocks_mem : (beginBlocks s).mem = s.mem := rfl
@[simp] theorem beginBlocks_msgCap : (beginBlocks s).msgCap = s.msgCap := rfl
@[simp] theorem beginBlocks_inputs : (beginBlocks s).inputs = s.inputs := rfl
@[simp] theorem beginBlocks_rdata : (beginBlocks s).rdata = s.rdata := rfl
@[simp] theorem beginBlocks_draws : (beginBlocks s).draws = s.draws := rfl

/-! ## countStep -/

@[simp] theorem countStep_h (p q : Phase) : (countStep p q s).h = s.h := rfl
@[simp] theorem countStep_v (p q : Phase) : (countStep p q s).v = s.v := rfl
@[simp] theorem countStep_w (p q : Phase) : (countStep p q s).w = s.w := rfl
@[simp] theorem countStep_t (p q : Phase) : (countStep p q s).t = s.t + 1 := rfl
@[simp] theorem countStep_blk (p q : Phase) : (countStep p q s).blk = s.blk := rfl
@[simp] theorem countStep_nblk (p q : Phase) : (countStep p q s).nblk = s.nblk := rfl
@[simp] theorem countStep_phase (p q : Phase) : (countStep p q s).phase = if s.t.toNat + 1 = 64 then q.code else p.code := rfl
@[simp] theorem countStep_err (p q : Phase) : (countStep p q s).err = s.err := rfl
@[simp] theorem countStep_msgLen (p q : Phase) : (countStep p q s).msgLen = s.msgLen := rfl
@[simp] theorem countStep_mem (p q : Phase) : (countStep p q s).mem = s.mem := rfl
@[simp] theorem countStep_msgCap (p q : Phase) : (countStep p q s).msgCap = s.msgCap := rfl
@[simp] theorem countStep_inputs (p q : Phase) : (countStep p q s).inputs = s.inputs := rfl
@[simp] theorem countStep_rdata (p q : Phase) : (countStep p q s).rdata = s.rdata := rfl
@[simp] theorem countStep_draws (p q : Phase) : (countStep p q s).draws = s.draws := rfl

/-! ## resetInput: the fields R270 gives a value, and the ones that are not the core's -/

@[simp] theorem resetInput_phase : (resetInput s).phase = Phase.idle.code := rfl
@[simp] theorem resetInput_err : (resetInput s).err = ErrCode.noError.code := rfl
@[simp] theorem resetInput_msgLen : (resetInput s).msgLen = 0 := rfl
@[simp] theorem resetInput_mem : (resetInput s).mem = [] := rfl
@[simp] theorem resetInput_msgCap : (resetInput s).msgCap = s.msgCap := rfl
@[simp] theorem resetInput_inputs : (resetInput s).inputs = s.inputs := rfl
@[simp] theorem resetInput_rdata : (resetInput s).rdata = s.rdata := rfl
@[simp] theorem resetInput_draws : (resetInput s).draws = s.draws + 83 := rfl

/-- BUSY depends on PHASE alone. -/
theorem State.busy_congr {s u : State} (h : u.phase = s.phase) : u.busy = s.busy := by
  simp [State.busy, h]

end Sys2Proof.Machine
end

