-- ==== Sys2Proof/Laws/Memory.lean ====
section
/-! SUPPORT. The laws of MSGMEM: read after write, and the canonical form is kept. -/

namespace Sys2Proof.Machine

@[simp] theorem Memory.read_nil (j : Nat) : Memory.read [] j = none := rfl

theorem Memory.read_cons (x : Nat) (b : Byte) (m : Memory) (j : Nat) :
    Memory.read ((x, b) :: m) j = if j = x then some b else Memory.read m j := rfl

/-- A read after a write to the same index gives the value written; every other index reads as before. -/
theorem Memory.read_write (m : Memory) (i j : Nat) (b : Byte) :
    Memory.read (m.write i b) j = if j = i then some b else Memory.read m j := by
  induction m with
  | nil => simp [Memory.write, Memory.read]
  | cons c m ih =>
    obtain ⟨x, c⟩ := c
    unfold Memory.write
    by_cases h1 : i < x
    · rw [if_pos h1, Memory.read_cons]
    · rw [if_neg h1]
      by_cases h2 : i = x
      · subst h2
        simp only [if_pos, Memory.read_cons]
        split_ifs <;> rfl
      · rw [if_neg h2]
        simp only [Memory.read_cons, ih]
        split_ifs <;> first | rfl | omega

@[simp] theorem Memory.read_write_same (m : Memory) (j : Nat) (b : Byte) :
    Memory.read (m.write j b) j = some b := by
  simp [Memory.read_write]

theorem Memory.read_write_other (m : Memory) {i j : Nat} (b : Byte) (h : j ≠ i) :
    Memory.read (m.write i b) j = Memory.read m j := by
  simp [Memory.read_write, h]

/-- The entries of a write: the new one, and entries that were there. -/
theorem Memory.mem_write {m : Memory} {j : Nat} {b : Byte} {c : Host.Cell} (h : c ∈ m.write j b) :
    c = (j, b) ∨ c ∈ m := by
  induction m with
  | nil => simpa [Memory.write] using h
  | cons d m ih =>
    obtain ⟨x, d⟩ := d
    unfold Memory.write at h
    split_ifs at h with h1 h2
    · simpa using h
    · subst h2
      rcases List.mem_cons.mp h with h | h
      · exact .inl h
      · exact .inr (List.mem_cons_of_mem _ h)
    · rcases List.mem_cons.mp h with h | h
      · exact .inr (by simp [h])
      · exact (ih h).imp id (List.mem_cons_of_mem _)

/-- A write keeps the canonical form. -/
theorem Memory.wf_write {m : Memory} (j : Nat) (b : Byte) (h : Memory.wf m) : Memory.wf (m.write j b) := by
  induction m with
  | nil => exact List.pairwise_singleton _ _
  | cons c m ih =>
    obtain ⟨x, c⟩ := c
    have hx := List.pairwise_cons.mp h
    unfold Memory.write
    split_ifs with h1 h2
    · refine List.pairwise_cons.mpr ⟨fun d hd => ?_, h⟩
      rcases List.mem_cons.mp hd with hd | hd
      · simpa [hd] using h1
      · exact Nat.lt_trans h1 (hx.1 d hd)
    · exact List.pairwise_cons.mpr ⟨hx.1, hx.2⟩
    · refine List.pairwise_cons.mpr ⟨fun d hd => ?_, ih hx.2⟩
      rcases Memory.mem_write hd with hd | hd
      · subst hd
        show x < j
        omega
      · exact hx.1 d hd

theorem Memory.wf_writeWord {m : Memory} (k : Nat) (d : Word) (h : Memory.wf m) : Memory.wf (m.writeWord k d) :=
  Memory.wf_write _ _ (Memory.wf_write _ _ (Memory.wf_write _ _ (Memory.wf_write _ _ h)))

/-- Every entry after a window write is one of the word's four bytes or was there before. -/
theorem Memory.mem_writeWord {m : Memory} {k : Nat} {d : Word} {c : Host.Cell} (h : c ∈ m.writeWord k d) :
    (4 * k ≤ c.1 ∧ c.1 < 4 * k + 4) ∨ c ∈ m := by
  unfold Memory.writeWord at h
  rcases Memory.mem_write h with h | h
  · exact .inl (by rw [h]; omega)
  rcases Memory.mem_write h with h | h
  · exact .inl (by rw [h]; omega)
  rcases Memory.mem_write h with h | h
  · exact .inl (by rw [h]; omega)
  rcases Memory.mem_write h with h | h
  · exact .inl (by rw [h]; omega)
  exact .inr h

/-- What every index reads after a window write: the word's bytes in big-endian lanes, and all else as before (R54). -/
theorem Memory.read_writeWord (m : Memory) (k : Nat) (d : Word) (j : Nat) :
    Memory.read (m.writeWord k d) j =
      if 4 * k ≤ j ∧ j < 4 * k + 4 then some (byteOf (j - 4 * k) d) else Memory.read m j := by
  simp only [Memory.writeWord, Memory.read_write]
  by_cases h : 4 * k ≤ j ∧ j < 4 * k + 4
  · rw [if_pos h]
    obtain rfl | rfl | rfl | rfl : j = 4 * k ∨ j = 4 * k + 1 ∨ j = 4 * k + 2 ∨ j = 4 * k + 3 := by omega
    all_goals simp
  · rw [if_neg h, if_neg (by omega), if_neg (by omega), if_neg (by omega), if_neg (by omega)]

end Sys2Proof.Machine
end

