-- ==== Sys2Proof/Laws/Ops.lean ====
section
/-! SUPPORT. For each shared operation, one lemma that says everything it can do. -/

namespace Sys2Proof.Machine

/-! ## Reads of MSGMEM -/

/-- The engine's read of a message byte (20_memory.md R51, R56). -/
theorem State.msgRead_cases (s : State) (j : Nat) :
    (∃ b, s.mem.read j = some b ∧ s.msgRead j = .ok b) ∨ (s.mem.read j = none ∧ s.msgRead j = .error j) := by
  unfold State.msgRead
  cases h : s.mem.read j with
  | none => exact .inr ⟨rfl, rfl⟩
  | some b => exact .inl ⟨b, rfl, rfl⟩

/-- The engine's read of a padded byte stops only at an unwritten message byte, which the error names (R56). -/
theorem State.padByte_error {s : State} {j e : Nat} (h : s.padByte j = .error e) :
    e = j ∧ j < s.msgLen.toNat ∧ s.mem.read j = none := by
  unfold State.padByte at h
  split_ifs at h with hj
  obtain ⟨b, -, hb⟩ | ⟨hn, hb⟩ := s.msgRead_cases j
  · rw [hb] at h; cases h
  · rw [hb] at h
    exact ⟨(Except.error.inj h).symm, hj, hn⟩

/-- The word of the padded message, when its four bytes have values. -/
theorem State.padWord_eq_ok {s : State} {j : Nat} {x : Word} :
    s.padWord j = .ok x ↔ ∃ b0 b1 b2 b3, s.padByte j = .ok b0 ∧ s.padByte (j + 1) = .ok b1 ∧
      s.padByte (j + 2) = .ok b2 ∧ s.padByte (j + 3) = .ok b3 ∧ x = be32 b0 b1 b2 b3 := by
  unfold State.padWord
  constructor
  · intro h
    split at h
    · cases h
    split at h
    · cases h
    split at h
    · cases h
    split at h
    · cases h
    exact ⟨_, _, _, _, ‹_›, ‹_›, ‹_›, ‹_›, (Except.ok.inj h).symm⟩
  · rintro ⟨b0, b1, b2, b3, h0, h1, h2, h3, rfl⟩
    simp [h0, h1, h2, h3]

/-- A padded word without a value names an unwritten byte of the message among its four. -/
theorem State.padWord_error {s : State} {j e : Nat} (h : s.padWord j = .error e) :
    j ≤ e ∧ e < j + 4 ∧ e < s.msgLen.toNat ∧ s.mem.read e = none := by
  unfold State.padWord at h
  split at h
  · rename_i e0 h0
    obtain rfl := Except.error.inj h
    obtain ⟨rfl, h1, h2⟩ := State.padByte_error h0
    exact ⟨by omega, by omega, h1, h2⟩
  split at h
  · rename_i e0 h0
    obtain rfl := Except.error.inj h
    obtain ⟨rfl, h1, h2⟩ := State.padByte_error h0
    exact ⟨by omega, by omega, h1, h2⟩
  split at h
  · rename_i e0 h0
    obtain rfl := Except.error.inj h
    obtain ⟨rfl, h1, h2⟩ := State.padByte_error h0
    exact ⟨by omega, by omega, h1, h2⟩
  split at h
  · rename_i e0 h0
    obtain rfl := Except.error.inj h
    obtain ⟨rfl, h1, h2⟩ := State.padByte_error h0
    exact ⟨by omega, by omega, h1, h2⟩
  cases h

/-- The words LOAD reads: as many as asked, word i at byte j + 4i (40_padder.md R117). -/
theorem State.padWords_eq_ok {s : State} {j n : Nat} {xs : List Word} :
    s.padWords j n = .ok xs ↔ xs.length = n ∧ ∀ i, (hi : i < xs.length) → s.padWord (j + 4 * i) = .ok xs[i] := by
  induction n generalizing j xs with
  | zero =>
    simp only [State.padWords]
    constructor
    · intro h
      obtain rfl := Except.ok.inj h
      exact ⟨rfl, by simp⟩
    · rintro ⟨h, -⟩
      rw [List.length_eq_zero_iff.mp h]
  | succ n ih =>
    simp only [State.padWords]
    constructor
    · intro h
      split at h
      · cases h
      rename_i x hx
      split at h
      · cases h
      rename_i ys hys
      obtain rfl := Except.ok.inj h
      obtain ⟨h1, h2⟩ := ih.mp hys
      refine ⟨by simp [h1], fun i hi => ?_⟩
      cases i with
      | zero => simpa using hx
      | succ i =>
        have hi' : i < ys.length := by simpa using hi
        have := h2 i hi'
        rw [show j + 4 * (i + 1) = j + 4 + 4 * i by omega]
        simpa using this
    · rintro ⟨h1, h2⟩
      cases xs with
      | nil => simp at h1
      | cons x xs =>
        have hx := h2 0 (by simp)
        have hxs : s.padWords (j + 4) n = .ok xs := by
          refine ih.mpr ⟨by simpa using h1, fun i hi => ?_⟩
          have := h2 (i + 1) (by simpa using hi)
          rw [show j + 4 + 4 * i = j + 4 * (i + 1) by omega]
          simpa using this
        simp only [Nat.mul_zero, Nat.add_zero, List.getElem_cons_zero] at hx
        simp [hx, hxs]

/-- Where LOAD stops, it names an unwritten message byte of the block. -/
theorem State.padWords_error {s : State} {j n e : Nat} (h : s.padWords j n = .error e) :
    j ≤ e ∧ e < j + 4 * n ∧ e < s.msgLen.toNat ∧ s.mem.read e = none := by
  induction n generalizing j with
  | zero => simp [State.padWords] at h
  | succ n ih =>
    simp only [State.padWords] at h
    split at h
    · rename_i e0 h0
      obtain rfl := Except.error.inj h
      obtain ⟨h1, h2, h3, h4⟩ := State.padWord_error h0
      exact ⟨h1, by omega, h3, h4⟩
    · split at h
      · rename_i e0 h0
        obtain rfl := Except.error.inj h
        obtain ⟨h1, h2, h3, h4⟩ := ih h0
        exact ⟨by omega, by omega, h3, h4⟩
      · cases h

/-- PadByte reads PHASE, T, the register files and the host side not at all. -/
theorem State.padByte_congr {s u : State} (hl : u.msgLen = s.msgLen) (hn : u.nblk = s.nblk) (hm : u.mem = s.mem) (j : Nat) :
    u.padByte j = s.padByte j := by
  unfold State.padByte State.msgRead State.paddedLen
  rw [hl, hn, hm]

theorem State.padWord_congr {s u : State} (hl : u.msgLen = s.msgLen) (hn : u.nblk = s.nblk) (hm : u.mem = s.mem) (j : Nat) :
    u.padWord j = s.padWord j := by
  simp only [State.padWord, State.padByte_congr hl hn hm]

theorem State.padWords_congr {s u : State} (hl : u.msgLen = s.msgLen) (hn : u.nblk = s.nblk) (hm : u.mem = s.mem)
    (j n : Nat) : u.padWords j n = s.padWords j n := by
  induction n generalizing j with
  | zero => rfl
  | succ n ih => simp only [State.padWords, State.padWord_congr hl hn hm, ih]

/-- The host's read of a byte: the stored value, or a draw that counts (R56). -/
theorem State.hostReadByte_cases (s : State) (j : Nat) :
    (∃ b, s.mem.read j = some b ∧ s.hostReadByte j = (b, s)) ∨
    (s.mem.read j = none ∧ s.hostReadByte j = ((Config.draw s.draws).setWidth 8, s.drawn 1)) := by
  unfold State.hostReadByte
  cases h : s.mem.read j with
  | none => exact .inr ⟨rfl, rfl⟩
  | some b => exact .inl ⟨b, rfl, rfl⟩

/-- After a byte read, only the count of draws may differ. -/
theorem State.hostReadByte_drawn (s : State) (j : Nat) : ∃ n, (s.hostReadByte j).2 = s.drawn n := by
  obtain ⟨b, -, h⟩ | ⟨-, h⟩ := s.hostReadByte_cases j
  · exact ⟨0, by rw [h]; rfl⟩
  · exact ⟨1, by rw [h]⟩

theorem State.drawn_drawn (s : State) (m n : Nat) : (s.drawn m).drawn n = s.drawn (m + n) := by
  simp [State.drawn, Nat.add_assoc]

/-- After a window read, only the count of draws may differ (R57: no side effects). -/
theorem State.hostReadWord_drawn (s : State) (k : Nat) : ∃ n, (s.hostReadWord k).2 = s.drawn n := by
  obtain ⟨n0, h0⟩ := s.hostReadByte_drawn (4 * k)
  obtain ⟨n1, h1⟩ := (s.drawn n0).hostReadByte_drawn (4 * k + 1)
  obtain ⟨n2, h2⟩ := (s.drawn n0 |>.drawn n1).hostReadByte_drawn (4 * k + 2)
  obtain ⟨n3, h3⟩ := (s.drawn n0 |>.drawn n1 |>.drawn n2).hostReadByte_drawn (4 * k + 3)
  refine ⟨n0 + n1 + n2 + n3, ?_⟩
  simp only [State.hostReadWord]
  rw [h0, h1, h2, h3, State.drawn_drawn, State.drawn_drawn, State.drawn_drawn]
  congr 1
  omega

/-- A window read of four written bytes is their big-endian word, and draws nothing (44_host_interface.md R214). -/
theorem State.hostReadWord_written {s : State} {k : Nat} {b0 b1 b2 b3 : Byte}
    (h0 : s.mem.read (4 * k) = some b0) (h1 : s.mem.read (4 * k + 1) = some b1)
    (h2 : s.mem.read (4 * k + 2) = some b2) (h3 : s.mem.read (4 * k + 3) = some b3) :
    s.hostReadWord k = (be32 b0 b1 b2 b3, s) := by
  simp [State.hostReadWord, State.hostReadByte, h0, h1, h2, h3]

/-! ## Input writes -/

theorem unlessBusy_of_busy {s : State} (f : State → State) (h : s.busy = true) : unlessBusy f s = s := by
  simp [unlessBusy, h, noEffect]

theorem unlessBusy_of_not_busy {s : State} (f : State → State) (h : s.busy = false) : unlessBusy f s = f s := by
  simp [unlessBusy, h]

/-! ## Register files -/

/-- W after LOAD: the words given, then the old ones (R117). -/
theorem getElem_loadWords (xs : List Word) (w : Vector Word 64) (i : Nat) (hi : i < 64) :
    (loadWords xs w)[i] = (xs[i]?).getD w[i] := by
  simp [loadWords]

/-- H after FOLD (42_compressor.md R172). -/
theorem getElem_foldVars (h v : Vector Word 8) (i : Nat) (hi : i < 8) : (foldVars h v)[i] = h[i] + v[i] := by
  simp [foldVars]

/-- T is counted without wrapping while it is in range (10_state.md R24, R34). -/
theorem toNat_countStep_t {s : State} (p q : Phase) (h : s.t.toNat < 64) : (countStep p q s).t.toNat = s.t.toNat + 1 := by
  rw [countStep_t, BitVec.toNat_add]
  have : (1 : BitVec 7).toNat = 1 := rfl
  omega

end Sys2Proof.Machine
end

