-- ==== Sys2Proof/Laws/PerInstr.lean ====
section
/-! SUPPORT. Statements about every instruction, one lemma per constructor. The family EncodedForm: the encoder writes the
bits a format ignores as 0 (30_encoding.md R80). -/

namespace Sys2Proof

theorem encodeRead_canonical (a : Word) : (encodeRead a).canonical = encodeRead a := by
  simp [encodeRead, Encoded.canonical, TxWord.addr_mk]

end Sys2Proof

namespace Sys2Proof.Laws.EncodedForm

/-- The encoded form of the instruction is canonical. -/
def Statement (i : Instr) : Prop := (encode i).canonical = encode i

theorem wrMisaligned01 (a : BitVec 30) (d : Word) : Statement (.wrMisaligned01 a d) := rfl
theorem rdMisaligned01 (a : BitVec 30) : Statement (.rdMisaligned01 a) := encodeRead_canonical _
theorem wrMisaligned10 (a : BitVec 30) (d : Word) : Statement (.wrMisaligned10 a d) := rfl
theorem rdMisaligned10 (a : BitVec 30) : Statement (.rdMisaligned10 a) := encodeRead_canonical _
theorem wrMisaligned11 (a : BitVec 30) (d : Word) : Statement (.wrMisaligned11 a d) := rfl
theorem rdMisaligned11 (a : BitVec 30) : Statement (.rdMisaligned11 a) := encodeRead_canonical _
theorem nop : Statement (.nop) := rfl
theorem start : Statement (.start) := rfl
theorem cmdIllegal (d : Word) : Statement (.cmdIllegal d) := rfl
theorem cmdBusy (d : Word) : Statement (.cmdBusy d) := rfl
theorem rdCmd : Statement (.rdCmd) := encodeRead_canonical _
theorem wrStatus (d : Word) : Statement (.wrStatus d) := rfl
theorem rdStatus : Statement (.rdStatus) := encodeRead_canonical _
theorem wrMsgLenLo (d : Word) : Statement (.wrMsgLenLo d) := rfl
theorem wrMsgLenHi (d : Word) : Statement (.wrMsgLenHi d) := rfl
theorem rdMsgLenLo : Statement (.rdMsgLenLo) := encodeRead_canonical _
theorem rdMsgLenHi : Statement (.rdMsgLenHi) := encodeRead_canonical _
theorem wrDigest (i : BitVec 3) (d : Word) : Statement (.wrDigest i d) := rfl
theorem rdDigest (i : BitVec 3) : Statement (.rdDigest i) := encodeRead_canonical _
theorem wrMsgwin (k : BitVec 30) (d : Word) : Statement (.wrMsgwin k d) := rfl
theorem rdMsgwin (k : BitVec 30) : Statement (.rdMsgwin k) := encodeRead_canonical _
theorem wrReserved (a : BitVec 30) (d : Word) : Statement (.wrReserved a d) := rfl
theorem rdReserved (a : BitVec 30) : Statement (.rdReserved a) := encodeRead_canonical _
theorem esIdle : Statement (.esIdle) := rfl
theorem esPad : Statement (.esPad) := rfl
theorem esLoad : Statement (.esLoad) := rfl
theorem esSched : Statement (.esSched) := rfl
theorem esCinit : Statement (.esCinit) := rfl
theorem esRound : Statement (.esRound) := rfl
theorem esFold : Statement (.esFold) := rfl
theorem esDone : Statement (.esDone) := rfl
theorem esError : Statement (.esError) := rfl
theorem esReserved9 : Statement (.esReserved9) := rfl
theorem esReserved10 : Statement (.esReserved10) := rfl
theorem esReserved11 : Statement (.esReserved11) := rfl
theorem esReserved12 : Statement (.esReserved12) := rfl
theorem esReserved13 : Statement (.esReserved13) := rfl
theorem esReserved14 : Statement (.esReserved14) := rfl
theorem esReserved15 : Statement (.esReserved15) := rfl

end Sys2Proof.Laws.EncodedForm
end

