-- ==== Sys2Proof/Laws/Step.lean ====
section
/-! SUPPORT. What a step can do, said once: the event it consumes, and for each instruction the states its meaning can
answer. -/

namespace Sys2Proof.Machine

/-- The next event of a state: an empty order leaves the engine to act (20_memory.md R60). -/
theorem step_of_nil {s : State} (h : s.inputs = []) : step s = exec (decodeEngine s.phase) s := by
  simp [step, fetch, h]

theorem step_of_engine {s : State} {es : List Event} (h : s.inputs = .engine :: es) :
    step s = exec (decodeEngine s.phase) (s.withInputs es) := by
  simp [step, fetch, h]

/-- A host transaction runs as decoded when PHASE holds no reserved code (30_encoding.md R89). -/
theorem step_of_host {s : State} {x : Transaction} {es : List Event} (h : s.inputs = .host x :: es)
    (hp : s.phase.toNat ≤ 8) : step s = exec (decodeHost s.msgCap s.busy x) (s.withInputs es) := by
  have hr : ¬ 9 ≤ s.phase.toNat := by omega
  simp [step, fetch, h, hostInstr, reservedPhase, hr]

theorem step_of_reset {s : State} {es : List Event} (h : s.inputs = .reset :: es) :
    step s = .next (resetInput (s.withInputs es)) := by
  simp [step, fetch, h]

/-- An engine step in a phase 9..15 stops (30_encoding.md R89). -/
theorem exec_decodeEngine_reserved {p : BitVec 4} (hp : 9 ≤ p.toNat) (u : State) :
    exec (decodeEngine p) u = .fault .reservedPhase := by
  have h := decodeEngine_reserved hp
  simp only [List.mem_cons, List.not_mem_nil, or_false] at h
  rcases h with h | h | h | h | h | h | h <;> rw [h] <;> rfl

/-- With PHASE in 9..15 every step but the reset input stops (R89, R270). -/
theorem step_of_reservedPhase {s : State} (hp : 9 ≤ s.phase.toNat) (hr : s.inputs.head? ≠ some .reset) :
    step s = .fault .reservedPhase := by
  rcases h : s.inputs with _ | ⟨_ | _ | _, es⟩
  · rw [step_of_nil h, exec_decodeEngine_reserved hp]
  · simp [step, fetch, h, hostInstr, reservedPhase, hp, exec_decodeEngine_reserved hp]
  · rw [step_of_engine h, exec_decodeEngine_reserved hp]
  · exact absurd (by rw [h]; rfl) hr

/-- A host transaction that answers a next state found no reserved code in PHASE (R89). -/
theorem phase_le_of_host_next {s t : State} {x : Transaction} {es : List Event} (h : s.inputs = .host x :: es)
    (hs : step s = .next t) : s.phase.toNat ≤ 8 := by
  by_contra hp
  rw [step_of_reservedPhase (by omega) (by simp [h])] at hs
  cases hs

/-- A busy phase is no reserved code (R86, R89). -/
theorem phase_le_of_busy {s : State} (h : s.busy = true) : s.phase.toNat ≤ 8 := by
  unfold State.busy at h
  generalize s.phase = p at h
  revert h p
  decide

/-- A state that admits a host transaction holds no reserved code (R89). -/
theorem admitHost_phase_le (s : State) : (admitHost s).phase.toNat ≤ 8 := by
  unfold admitHost reservedPhase
  split_ifs with h
  · show Phase.idle.code.toNat ≤ 8
    decide
  · simpa [Nat.lt_succ_iff] using h

/-- A placed host transaction is the very next thing the step runs. -/
theorem step_placeHost (x : Transaction) (s : State) :
    step (placeEncoded (.host x) s) =
      exec (decodeHost (admitHost s).msgCap (admitHost s).busy x) ((admitHost s).withInputs s.inputs) :=
  step_of_host (s := (admitHost s).withInputs (.host x :: s.inputs)) rfl (admitHost_phase_le s)

/-- The step by cases of the next event. -/
theorem step_cases (s : State) :
    (s.inputs = [] ∧ step s = exec (decodeEngine s.phase) s) ∨
    (∃ es, s.inputs = .engine :: es ∧ step s = exec (decodeEngine s.phase) (s.withInputs es)) ∨
    (∃ x es, s.inputs = .host x :: es ∧
      (s.phase.toNat ≤ 8 → step s = exec (decodeHost s.msgCap s.busy x) (s.withInputs es)) ∧
      (9 ≤ s.phase.toNat → step s = .fault .reservedPhase)) ∨
    (∃ es, s.inputs = .reset :: es ∧ step s = .next (resetInput (s.withInputs es))) := by
  rcases h : s.inputs with _ | ⟨_ | _ | _, es⟩
  · exact .inl ⟨rfl, step_of_nil h⟩
  · exact .inr (.inr (.inl ⟨_, es, rfl, step_of_host h, fun hp => step_of_reservedPhase hp (by simp [h])⟩))
  · exact .inr (.inl ⟨es, rfl, step_of_engine h⟩)
  · exact .inr (.inr (.inr ⟨es, rfl, step_of_reset h⟩))

/-- Only offset 0 is the CMD port (30_encoding.md R83). -/
theorem classify_eq_cmd {cap : Nat} {a : Word} : classify cap a = .cmd ↔ a = 0 := by
  constructor
  · intro h
    unfold classify at h
    split_ifs at h with h1 h2
    exact h2
  · rintro rfl
    simp [classify]

/-- Only offset 8 is MSG_LEN_LO (R83). -/
theorem classify_eq_msgLenLo {cap : Nat} {a : Word} : classify cap a = .msgLenLo ↔ a = 8 := by
  constructor
  · intro h
    unfold classify at h
    split_ifs at h with h1 h2 h3 h4
    exact h4
  · rintro rfl
    simp [classify]

/-- Only offset 0xC is MSG_LEN_HI (R83). -/
theorem classify_eq_msgLenHi {cap : Nat} {a : Word} : classify cap a = .msgLenHi ↔ a = 0xC := by
  constructor
  · intro h
    unfold classify at h
    split_ifs at h with h1 h2 h3 h4 h5
    exact h5
  · rintro rfl
    simp [classify]

/-- A window word lies in the buffer (R83 case 7; MSG_CAP is a multiple of 4, so it never runs past the end). -/
theorem classify_eq_msgwin {cap : Nat} {a : Word} {k : BitVec 30} (h : classify cap a = .msgwin k) :
    a.toNat = 0x1000 + 4 * k.toNat ∧ 4 * k.toNat < cap := by
  unfold classify at h
  split_ifs at h with h1 h2 h3 h4 h5 h6 h7
  obtain rfl := Target.msgwin.inj h
  have h0 : a.toNat % 4 = 0 := by
    have := congrArg BitVec.toNat (not_not.mp h1)
    rw [toNat_field] at this
    simpa using this
  have hs : (a - 0x1000).toNat = a.toNat - 0x1000 := by
    have h9 : (0x1000 : Word).toNat = 0x1000 := rfl
    rw [BitVec.toNat_sub, h9]
    have := a.isLt
    omega
  rw [toNat_field, hs]
  have := a.isLt
  omega

/-- Every state a host read can lead to: only the value read and the draws change (20_memory.md R57). -/
theorem exec_decodeRead_cases (cap : Nat) (word : TxWord) (s : State) :
    ∃ r n, exec (decodeRead cap word) s = .next (readReturns r (s.drawn n)) := by
  unfold decodeRead
  split
  · split_ifs <;> exact ⟨0, 0, rfl⟩
  · exact ⟨0, 0, rfl⟩
  · exact ⟨_, 0, rfl⟩
  · exact ⟨_, 0, rfl⟩
  · exact ⟨_, 0, rfl⟩
  · exact ⟨_, 0, rfl⟩
  · rename_i k _
    obtain ⟨n, hn⟩ := s.hostReadWord_drawn k.toNat
    exact ⟨(s.hostReadWord k.toNat).1, n, by simp only [exec, execRdMsgwin, hn]⟩
  · exact ⟨0, 0, rfl⟩

/-- Every state a host write can lead to: nothing changes, or one of the writes of 44_host_interface.md lands (R200). -/
theorem exec_decodeWrite_cases (cap : Nat) (busy : Bool) (word : TxWord) (s : State) :
    (exec (decodeWrite cap busy word) s = .next s ∧
      (TxWord.addr word = 0 → busy = true ∨ TxWord.data word = 0)) ∨
    (exec (decodeWrite cap busy word) s = .next (unlessBusy beginJob s) ∧
      TxWord.addr word = 0 ∧ busy = false ∧ TxWord.data word = 1) ∨
    (exec (decodeWrite cap busy word) s = .next (unlessBusy (raiseError .badCommand) s) ∧
      TxWord.addr word = 0 ∧ busy = false ∧ TxWord.data word ≠ 0 ∧ TxWord.data word ≠ 1) ∨
    (exec (decodeWrite cap busy word) s = .next (unlessBusy (setMsgLenLo (TxWord.data word)) s) ∧
      TxWord.addr word = 8) ∨
    (exec (decodeWrite cap busy word) s = .next (unlessBusy (setMsgLenHi (TxWord.data word)) s) ∧
      TxWord.addr word = 0xC) ∨
    (∃ k : BitVec 30, classify cap (TxWord.addr word) = .msgwin k ∧
      exec (decodeWrite cap busy word) s =
        .next (unlessBusy (fun u => u.withMem (u.mem.writeWord k.toNat (TxWord.data word))) s)) := by
  have hz : ∀ t, classify cap (TxWord.addr word) = t → t ≠ .cmd → TxWord.addr word = 0 →
      busy = true ∨ TxWord.data word = 0 := fun t ht hne h0 => absurd (ht ▸ classify_eq_cmd.mpr h0) hne
  unfold decodeWrite
  cases hc : classify cap (TxWord.addr word)
  case misaligned low a =>
    refine .inl ⟨?_, hz _ hc (by simp)⟩
    show exec (if low = 1 then _ else if low = 2 then _ else _) s = _
    split_ifs <;> rfl
  case cmd =>
    have ha := classify_eq_cmd.mp hc
    show (exec (decodeCommand _ _) s = _ ∧ _) ∨ _
    simp only [decodeCommand]
    split_ifs with hb h0 h1
    · exact .inl ⟨rfl, fun _ => .inl hb⟩
    · exact .inl ⟨rfl, fun _ => .inr h0⟩
    · exact .inr (.inl ⟨rfl, ha, by simpa using hb, h1⟩)
    · exact .inr (.inr (.inl ⟨rfl, ha, by simpa using hb, h0, h1⟩))
  case status => exact .inl ⟨rfl, hz _ hc (by simp)⟩
  case msgLenLo => exact .inr (.inr (.inr (.inl ⟨rfl, classify_eq_msgLenLo.mp hc⟩)))
  case msgLenHi => exact .inr (.inr (.inr (.inr (.inl ⟨rfl, classify_eq_msgLenHi.mp hc⟩))))
  case digest => exact .inl ⟨rfl, hz _ hc (by simp)⟩
  case msgwin k => exact .inr (.inr (.inr (.inr (.inr ⟨k, rfl, rfl⟩))))
  case reserved => exact .inl ⟨rfl, hz _ hc (by simp)⟩

/-- Every next state an engine step can lead to, by the phase (R88): the quiescent stutter, the three exits of PAD, LOAD,
SCHED, CINIT, ROUND and FOLD. -/
theorem exec_decodeEngine_cases {u t : State} (h : exec (decodeEngine u.phase) u = .next t) :
    ((u.phase = 0 ∨ u.phase = 7 ∨ u.phase = 8) ∧ t = u) ∨
    (u.phase = 1 ∧ 2 ^ 61 ≤ u.msgLen.toNat ∧ t = raiseError .inputTooLarge u) ∨
    (u.phase = 1 ∧ u.msgLen.toNat < 2 ^ 61 ∧ u.msgCap < u.msgLen.toNat ∧ t = raiseError .bufferOverrun u) ∨
    (u.phase = 1 ∧ u.msgLen.toNat < 2 ^ 61 ∧ u.msgLen.toNat ≤ u.msgCap ∧ t = beginBlocks u) ∨
    (u.phase = 2 ∧ u.blk.toNat < u.nblk.toNat ∧ ∃ xs, u.padWords (64 * u.blk.toNat) 16 = .ok xs ∧
      t = { u with w := loadWords xs u.w, t := 16, phase := Phase.sched.code }) ∨
    (u.phase = 3 ∧ ∃ ht : 16 ≤ u.t.toNat ∧ u.t.toNat < 64,
      t = countStep .sched .cinit { u with w := u.w.set u.t.toNat (nextScheduleWord u.w u.t.toNat ht) ht.2 }) ∨
    (u.phase = 4 ∧ t = { u with v := u.h, t := 0, phase := Phase.round.code }) ∨
    (u.phase = 5 ∧ ∃ ht : u.t.toNat < 64,
      t = countStep .round .fold { u with v := roundVars u.v (kRom[u.t.toNat]'ht) (u.w[u.t.toNat]'ht) }) ∨
    (u.phase = 6 ∧ t = { u with
      h := foldVars u.h u.v
      blk := u.blk + 1
      phase := if u.blk.toNat + 1 = u.nblk.toNat then Phase.done.code else Phase.load.code }) := by
  rcases phase_cases u.phase with ⟨q, hq⟩ | hp
  · rw [hq, decodeEngine_code] at h
    rw [hq]
    cases q
    · exact .inl ⟨.inl rfl, (Host.Outcome.next.inj h).symm⟩
    · have h : execEsPad u = .next t := h
      unfold execEsPad at h
      split_ifs at h with h1 h2 <;> obtain rfl := Host.Outcome.next.inj h
      · exact .inr (.inl ⟨rfl, h1, rfl⟩)
      · exact .inr (.inr (.inl ⟨rfl, by omega, h2, rfl⟩))
      · exact .inr (.inr (.inr (.inl ⟨rfl, by omega, by omega, rfl⟩)))
    · have h : execEsLoad u = .next t := h
      unfold execEsLoad at h
      split_ifs at h with h1
      split at h
      · cases h
      · obtain rfl := Host.Outcome.next.inj h
        exact .inr (.inr (.inr (.inr (.inl ⟨rfl, h1, _, ‹_›, rfl⟩))))
    · have h : execEsSched u = .next t := h
      unfold execEsSched at h
      split_ifs at h with h1
      obtain rfl := Host.Outcome.next.inj h
      exact .inr (.inr (.inr (.inr (.inr (.inl ⟨rfl, h1, rfl⟩)))))
    · obtain rfl := Host.Outcome.next.inj h
      exact .inr (.inr (.inr (.inr (.inr (.inr (.inl ⟨rfl, rfl⟩))))))
    · have h : execEsRound u = .next t := h
      unfold execEsRound at h
      split_ifs at h with h1
      obtain rfl := Host.Outcome.next.inj h
      exact .inr (.inr (.inr (.inr (.inr (.inr (.inr (.inl ⟨rfl, h1, rfl⟩)))))))
    · obtain rfl := Host.Outcome.next.inj h
      exact .inr (.inr (.inr (.inr (.inr (.inr (.inr (.inr ⟨rfl, rfl⟩)))))))
    · exact .inl ⟨.inr (.inl rfl), (Host.Outcome.next.inj h).symm⟩
    · exact .inl ⟨.inr (.inr rfl), (Host.Outcome.next.inj h).symm⟩
  · rw [exec_decodeEngine_reserved hp] at h
    cases h

/-- Every state a host transaction can lead to, with the transaction that leads there (R200). -/
theorem step_host_cases {s : State} {x : Transaction} {es : List Event} (hi : s.inputs = .host x :: es)
    (hp : s.phase.toNat ≤ 8) : ∃ t, step s = .next t ∧ (
      (∃ word, x = .read word ∧ ∃ r n, t = readReturns r ((s.withInputs es).drawn n)) ∨
      (∃ word, x = .write word ∧ t = s.withInputs es ∧
        (TxWord.addr word = 0 → s.busy = true ∨ TxWord.data word = 0)) ∨
      (∃ word, x = .write word ∧ s.busy = false ∧ TxWord.addr word = 0 ∧ TxWord.data word = 1 ∧
        t = beginJob (s.withInputs es)) ∨
      (∃ word, x = .write word ∧ s.busy = false ∧ TxWord.addr word = 0 ∧ TxWord.data word ≠ 0 ∧
        TxWord.data word ≠ 1 ∧ t = raiseError .badCommand (s.withInputs es)) ∨
      (∃ word, x = .write word ∧ s.busy = false ∧ TxWord.addr word ≠ 0 ∧ ∃ len, t = (s.withInputs es).withMsgLen len) ∨
      (∃ word, x = .write word ∧ s.busy = false ∧ TxWord.addr word ≠ 0 ∧ ∃ k : BitVec 30, 4 * k.toNat < s.msgCap ∧
        t = (s.withInputs es).withMem (s.mem.writeWord k.toNat (TxWord.data word)))) := by
  rw [step_of_host hi hp]
  have hu : (s.withInputs es).busy = s.busy := rfl
  cases x with
  | read w =>
    obtain ⟨r, n, h⟩ := exec_decodeRead_cases s.msgCap w (s.withInputs es)
    exact ⟨_, h, .inl ⟨w, rfl, r, n, rfl⟩⟩
  | write w =>
    simp only [decodeHost]
    cases hb : s.busy with
    | true =>
      rw [hb] at hu
      rcases exec_decodeWrite_cases s.msgCap true w (s.withInputs es) with
        ⟨h, h1⟩ | ⟨h, -, h1, -⟩ | ⟨h, -, h1, -⟩ | ⟨h, -⟩ | ⟨h, -⟩ | ⟨k, -, h⟩
      · exact ⟨_, h, .inr (.inl ⟨w, rfl, rfl, h1⟩)⟩
      · cases h1
      · cases h1
      all_goals
        rw [unlessBusy_of_busy _ hu] at h
        exact ⟨_, h, .inr (.inl ⟨w, rfl, rfl, fun _ => .inl rfl⟩)⟩
    | false =>
      rw [hb] at hu
      rcases exec_decodeWrite_cases s.msgCap false w (s.withInputs es) with
        ⟨h, h1⟩ | ⟨h, h0, -, h1⟩ | ⟨h, h0, -, h1, h2⟩ | ⟨h, h1⟩ | ⟨h, h1⟩ | ⟨k, hk, h⟩
      · exact ⟨_, h, .inr (.inl ⟨w, rfl, rfl, h1⟩)⟩
      all_goals rw [unlessBusy_of_not_busy _ hu] at h
      · exact ⟨_, h, .inr (.inr (.inl ⟨w, rfl, rfl, h0, h1, rfl⟩))⟩
      · exact ⟨_, h, .inr (.inr (.inr (.inl ⟨w, rfl, rfl, h0, h1, h2, rfl⟩)))⟩
      · exact ⟨_, h, .inr (.inr (.inr (.inr (.inl ⟨w, rfl, rfl, by rw [h1]; decide, _, rfl⟩))))⟩
      · exact ⟨_, h, .inr (.inr (.inr (.inr (.inl ⟨w, rfl, rfl, by rw [h1]; decide, _, rfl⟩))))⟩
      · obtain ⟨h2, h3⟩ := classify_eq_msgwin hk
        refine ⟨_, h, .inr (.inr (.inr (.inr (.inr ⟨w, rfl, rfl, ?_, k, h3, rfl⟩))))⟩
        intro h0
        have hz : (0 : Word).toNat = 0 := rfl
        rw [h0] at h2
        omega

end Sys2Proof.Machine
end

