-- ==== Sys2Proof/Laws/Run.lean ====
section
/-! SUPPORT. Runs of several steps, the engine's turn, and the steps a job has left. -/

namespace Sys2Proof.Machine

/-- The host's run, one step unfolded, for each outcome of that step. -/
theorem core_run_succ_next (M : Host.Core) (n : Nat) {s t : M.State} (h : M.step s = .next t) :
    M.run (n + 1) s = M.run n t := by
  show (match M.step s with
    | .next s' => M.run n s' | .fault r => .fault r | .refused r => .refused r) = _
  rw [h]

theorem core_run_succ_fault (M : Host.Core) (n : Nat) {s : M.State} {r : M.Fault} (h : M.step s = .fault r) :
    M.run (n + 1) s = .fault r := by
  show (match M.step s with
    | .next s' => M.run n s' | .fault r => .fault r | .refused r => .refused r) = _
  rw [h]

theorem core_run_succ_refused (M : Host.Core) (n : Nat) {s : M.State} {r : M.Refusal} (h : M.step s = .refused r) :
    M.run (n + 1) s = .refused r := by
  show (match M.step s with
    | .next s' => M.run n s' | .fault r => .fault r | .refused r => .refused r) = _
  rw [h]

@[simp] theorem runSteps_zero (s : State) : runSteps 0 s = .next s := rfl

theorem runSteps_succ_next {n : Nat} {s t : State} (h : step s = .next t) : runSteps (n + 1) s = runSteps n t :=
  core_run_succ_next Sys2Proof.core n h

/-- A run that answers a next state took a first step that did. -/
theorem runSteps_succ_inv {n : Nat} {s t : State} (h : runSteps (n + 1) s = .next t) :
    ∃ u, step s = .next u ∧ runSteps n u = .next t := by
  cases hs : step s with
  | next u =>
    rw [runSteps_succ_next hs] at h
    exact ⟨u, rfl, h⟩
  | fault r =>
    have h1 : runSteps (n + 1) s = .fault r := core_run_succ_fault Sys2Proof.core n hs
    rw [h1] at h
    cases h
  | refused r =>
    have h1 : runSteps (n + 1) s = .refused r := core_run_succ_refused Sys2Proof.core n hs
    rw [h1] at h
    cases h

theorem runSteps_add {m n : Nat} {s t : State} (h : runSteps m s = .next t) : runSteps (m + n) s = runSteps n t := by
  induction m generalizing s with
  | zero =>
    obtain rfl := Host.Outcome.next.inj h
    rw [Nat.zero_add]
  | succ m ih =>
    obtain ⟨u, h1, h2⟩ := runSteps_succ_inv h
    rw [show m + 1 + n = (m + n) + 1 by omega, runSteps_succ_next h1]
    exact ih h2

/-- The engine's turn, by the order or because the host is silent (20_memory.md R60). -/
theorem step_of_engineNext {s : State} (h : s.engineNext) :
    step s = exec (decodeEngine s.phase) (s.withInputs s.restInputs) := by
  rcases h with h | ⟨es, h⟩
  · have hs : s.withInputs s.restInputs = s := by
      show { s with inputs := s.inputs.tail } = s
      rw [h]
      show { s with inputs := [] } = s
      rw [← h]
    rw [step_of_nil h, hs]
  · have hs : s.restInputs = es := by
      show s.inputs.tail = es
      rw [h]
      rfl
    rw [step_of_engine h, hs]

theorem stepsLeft_of_sched {s : State} (h : s.phase = Phase.sched.code) :
    s.stepsLeft = (64 - s.t.toNat) + 66 + 115 * (s.nblk.toNat - s.blk.toNat - 1) := by
  unfold State.stepsLeft
  simp only [h]
  rfl

theorem stepsLeft_of_cinit {s : State} (h : s.phase = Phase.cinit.code) :
    s.stepsLeft = 66 + 115 * (s.nblk.toNat - s.blk.toNat - 1) := by
  unfold State.stepsLeft
  simp only [h]
  rfl

theorem stepsLeft_of_round {s : State} (h : s.phase = Phase.round.code) :
    s.stepsLeft = (64 - s.t.toNat) + 1 + 115 * (s.nblk.toNat - s.blk.toNat - 1) := by
  unfold State.stepsLeft
  simp only [h]
  rfl

theorem stepsLeft_of_fold {s : State} (h : s.phase = Phase.fold.code) :
    s.stepsLeft = 1 + 115 * (s.nblk.toNat - s.blk.toNat - 1) := by
  unfold State.stepsLeft
  simp only [h]
  rfl

/-- BUSY is 0 in the phases that are no block phase and not PAD, so `inBlocks` fails there. -/
theorem not_inBlocks_of_not_busy {s : State} (h : s.busy = false) : ¬ s.inBlocks := by
  unfold State.busy at h
  unfold State.inBlocks
  generalize s.phase = p at h
  revert h p
  decide

end Sys2Proof.Machine
end

