-- ==== Sys2Proof/Tests/Slice0.lean ====
section
/-! SUPPORT. The model's own tests: the well-formedness checks, the decoding of words written out from the spec's encodings,
one step of each instruction with a result from 95_test_vectors.md or from the rule named, and a witness for the hypotheses
of every statement. -/

namespace Sys2Proof.Tests

open Sys2Proof Sys2Proof.Machine

/-! ## Well-formedness: an ill-formed term for each check -/

/-- An illegal command is neither NOP nor START (R205). -/
theorem test_wf_refuses_illegal_zero : (Instr.cmdIllegal 0).wf 4096 = false := by decide
theorem test_wf_refuses_illegal_one : (Instr.cmdIllegal 1).wf 4096 = false := by decide
theorem test_wf_admits_illegal_two : (Instr.cmdIllegal 2).wf 4096 = true := by decide
/-- A window word lies in the buffer (R209, R214): word 16 of a 64-byte buffer does not. -/
theorem test_wf_refuses_window_write : (Instr.wrMsgwin 16 0).wf 64 = false := by decide
theorem test_wf_refuses_window_read : (Instr.rdMsgwin 16).wf 64 = false := by decide
theorem test_wf_admits_last_window_word : (Instr.wrMsgwin 15 0).wf 64 = true ∧ (Instr.rdMsgwin 15).wf 64 = true := by
  decide
/-- A reserved offset is reserved (R58): 0x0C is MSG_LEN_HI, 0x20 is DIGEST0, 0x1000 is the window. -/
theorem test_wf_refuses_reserved_write : (Instr.wrReserved 3 0).wf 64 = false ∧ (Instr.wrReserved 8 0).wf 64 = false := by
  decide
theorem test_wf_refuses_reserved_read : (Instr.rdReserved 15).wf 64 = false ∧ (Instr.rdReserved 0x400).wf 64 = false := by
  decide
/-- The edges of the reserved ranges: 0x10, 0x1C, 0x40, 0xFFC and 0x1040 (MSG_CAP = 64). -/
theorem test_wf_admits_reserved_edges :
    (Instr.rdReserved 4).wf 64 = true ∧ (Instr.rdReserved 7).wf 64 = true ∧ (Instr.rdReserved 0x10).wf 64 = true ∧
    (Instr.rdReserved 0x3FF).wf 64 = true ∧ (Instr.wrReserved 0x410 0).wf 64 = true := by decide
/-- The condition column of the CMD rows (R201). -/
theorem test_fitsBusy_commands :
    (Instr.cmdBusy 0).fitsBusy false = false ∧ Instr.nop.fitsBusy true = false ∧ Instr.start.fitsBusy true = false ∧
    (Instr.cmdIllegal 2).fitsBusy true = false := by decide

/-! ## Decoding: words written out from 30_encoding.md R80 to R88 -/

/-- The word 0x00001034_65666768 bit by bit: A = 0x1034, then D. -/
theorem test_decode_msgwin_bits :
    decode 4096 false (.host (.write (0b0000000000000000000100000011010001100101011001100110011101101000 : TxWord))) =
      .wrMsgwin 13 0x65666768 := by decide

/-- The word 0x00000004_00000000 bit by bit, as a read and as a write. -/
theorem test_decode_status_bits :
    decode 4096 false (.host (.read (0b0000000000000000000000000000010000000000000000000000000000000000 : TxWord))) = .rdStatus ∧
    decode 4096 false (.host (.write (0b0000000000000000000000000000010000000000000000000000000000000000 : TxWord))) =
      .wrStatus 0 := by decide

/-- PHASE = 0b0101 is ROUND, 0b1001 is the first reserved code. -/
theorem test_decode_phase_bits :
    decode 4096 true (.engine 0b0101) = .esRound ∧ decode 4096 false (.engine 0b1001) = .esReserved9 := by decide

/-- The CMD rows (R85, R201): the whole 32-bit value is the opcode. -/
theorem test_decode_commands :
    decode 4096 false (.host (.write 0x0000000000000000)) = .nop ∧
    decode 4096 false (.host (.write 0x0000000000000001)) = .start ∧
    decode 4096 false (.host (.write 0x0000000000000100)) = .cmdIllegal 0x100 ∧
    decode 4096 false (.host (.write 0x0000000080000001)) = .cmdIllegal 0x80000001 ∧
    decode 4096 true (.host (.write 0x0000000000000001)) = .cmdBusy 1 ∧
    decode 4096 false (.host (.read 0x0000000000000000)) = .rdCmd := by decide

/-- A[1:0] is tested first (R83): 0x1003, 0x2 and 0xFFFFFFFF are misaligned. -/
theorem test_decode_misaligned :
    decode 4096 false (.host (.write 0x00000001DEADBEEF)) = .wrMisaligned01 0 0xDEADBEEF ∧
    decode 4096 false (.host (.read 0x0000000100000000)) = .rdMisaligned01 0 ∧
    decode 4096 false (.host (.write 0x0000100212345678)) = .wrMisaligned10 0x400 0x12345678 ∧
    decode 4096 false (.host (.read 0x0000000600000000)) = .rdMisaligned10 1 ∧
    decode 4096 false (.host (.write 0xFFFFFFFF00000001)) = .wrMisaligned11 0x3FFFFFFF 1 ∧
    decode 4096 false (.host (.read 0x0000100300000000)) = .rdMisaligned11 0x400 := by decide

/-- STATUS, MSG_LEN and DIGEST (R82, R84). -/
theorem test_decode_registers :
    decode 4096 false (.host (.write 0x00000004FFFFFFFF)) = .wrStatus 0xFFFFFFFF ∧
    decode 4096 false (.host (.write 0x0000000800000003)) = .wrMsgLenLo 3 ∧
    decode 4096 true (.host (.write 0x0000000C20000000)) = .wrMsgLenHi 0x20000000 ∧
    decode 4096 false (.host (.read 0x0000000800000000)) = .rdMsgLenLo ∧
    decode 4096 false (.host (.read 0x0000000C00000000)) = .rdMsgLenHi ∧
    decode 4096 false (.host (.write 0x0000002000000007)) = .wrDigest 0 7 ∧
    decode 4096 false (.host (.read 0x0000002C00000000)) = .rdDigest 3 ∧
    decode 4096 false (.host (.read 0x0000003C00000000)) = .rdDigest 7 := by decide

/-- The window and the reserved offsets (R83 cases 7 and 8), with the edges of the window; bits 31:0 of a read are ignored
(R80). -/
theorem test_decode_window_and_reserved :
    decode 64 false (.host (.write 0x0000100061626300)) = .wrMsgwin 0 0x61626300 ∧
    decode 64 false (.host (.read 0x0000103CFFFFFFFF)) = .rdMsgwin 15 ∧
    decode 64 false (.host (.write 0x0000104012345678)) = .wrReserved 0x410 0x12345678 ∧
    decode 64 false (.host (.read 0x0000001000000000)) = .rdReserved 4 ∧
    decode 64 false (.host (.read 0x0000001C00000000)) = .rdReserved 7 ∧
    decode 64 false (.host (.read 0x0000004000000000)) = .rdReserved 0x10 ∧
    decode 64 false (.host (.read 0x00000FFC00000000)) = .rdReserved 0x3FF ∧
    decode 64 false (.host (.read 0xFFFFFFFC00000000)) = .rdReserved 0x3FFFFFFF := by decide

/-- The phase codes (R88, R89). -/
theorem test_decode_phases :
    decodeEngine 0x0 = .esIdle ∧ decodeEngine 0x1 = .esPad ∧ decodeEngine 0x2 = .esLoad ∧ decodeEngine 0x3 = .esSched ∧
    decodeEngine 0x4 = .esCinit ∧ decodeEngine 0x5 = .esRound ∧ decodeEngine 0x6 = .esFold ∧
    decodeEngine 0x7 = .esDone ∧ decodeEngine 0x8 = .esError := by decide

theorem test_decode_reserved_phases :
    decodeEngine 0x9 = .esReserved9 ∧ decodeEngine 0xA = .esReserved10 ∧ decodeEngine 0xB = .esReserved11 ∧
    decodeEngine 0xC = .esReserved12 ∧ decodeEngine 0xD = .esReserved13 ∧ decodeEngine 0xE = .esReserved14 ∧
    decodeEngine 0xF = .esReserved15 := by decide

/-- A bit string that is no word of any format is rejected by name. -/
theorem test_decode_rejects :
    decodeBits 4096 false 32 0 = .error (.badLength 32) ∧ decodeBits 4096 false 8 16 = .error (.excessBits 8) ∧
    decodeBits 4096 false 64 (2 ^ 64) = .error (.excessBits 64) ∧
    decodeBits 4096 false 72 (2 ^ 65) = .error (.excessBits 72) := by
  refine ⟨rfl, rfl, rfl, rfl⟩

/-- The host's table words: an HW word, an ES word, and a read as a bus transaction with its direction in bit 64. -/
theorem test_decodeTableWord :
    decodeTableWord 64 0x0000000000000001 = some .start ∧ decodeTableWord 8 0x6 = some .esFold ∧
    decodeTableWord 72 0x10000000400000000 = some .rdStatus ∧ decodeTableWord 16 0 = none := by decide

/-! ## States -/

/-- What a next state shows of itself. -/
def shows {α : Type} (o : Host.Outcome State Fault Refusal) (f : State → α) : Option α :=
  match o with
  | .next t => some (f t)
  | .fault _ => none
  | .refused _ => none

/-- The fault an outcome is. -/
def faultOf (o : Host.Outcome State Fault Refusal) : Option Fault :=
  match o with
  | .fault r => some r
  | _ => none

/-- Reset, with a phase. -/
def inPhase (p : BitVec 4) : State := { State.reset with phase := p }

/-- "abc" in the window, with its length set (95_test_vectors.md P2). -/
def abc (p : BitVec 4) : State :=
  { inPhase p with msgLen := 3, nblk := 1, mem := [(0, 0x61), (1, 0x62), (2, 0x63), (3, 0x00)] }

/-- The initial hash value (R161). -/
def iv : Vector Word 8 :=
  #v[0x6A09E667, 0xBB67AE85, 0x3C6EF372, 0xA54FF53A, 0x510E527F, 0x9B05688C, 0x1F83D9AB, 0x5BE0CD19]

/-- The variables after round 62 of "abc" (95_test_vectors.md 2.4). -/
def abcRound62 : Vector Word 8 :=
  #v[0xD39A2165, 0x04D24D6C, 0xB85E2CE9, 0xB6AE8FFF, 0xFB121210, 0x948D25B6, 0x961F4894, 0xB21BAD3D]

/-- The variables after round 63 of "abc" (2.4). -/
def abcRound63 : Vector Word 8 :=
  #v[0x506E3058, 0xD39A2165, 0x04D24D6C, 0xB85E2CE9, 0x5EF50F24, 0xFB121210, 0x948D25B6, 0x961F4894]

/-- The hash of "abc" (1.2). -/
def abcHash : Vector Word 8 :=
  #v[0xBA7816BF, 0x8F01CFEA, 0x414140DE, 0x5DAE2223, 0xB00361A3, 0x96177A9C, 0xB410FF61, 0xF20015AD]

/-- W[0] and W[15] of "abc", and zeros (2.2). -/
def abcWords : Vector Word 64 :=
  ((Vector.replicate 64 (0 : Word)).set 0 0x61626380).set 15 0x00000018

/-- "abc" hashed: DONE. -/
def abcDone : State := { abc 7 with h := abcHash, blk := 1, t := 64 }

/-! ## One step of each instruction -/

theorem test_wrMisaligned01 : shows (exec (.wrMisaligned01 0 1) (abc 0)) id = some (abc 0) := by decide
theorem test_wrMisaligned10_window : shows (exec (.wrMisaligned10 0x400 0x12345678) (abc 0)) id = some (abc 0) := by decide
theorem test_wrMisaligned11 : shows (exec (.wrMisaligned11 2 7) (abc 0)) id = some (abc 0) := by decide

/-- A misaligned read gives 0 whatever was read before (R55; program P7). -/
theorem test_rdMisaligned01 : shows (exec (.rdMisaligned01 1) ((abc 7).withRdata 5)) State.rdata = some 0 := by decide
theorem test_rdMisaligned10 : shows (exec (.rdMisaligned10 8) (abcDone.withRdata 5)) State.rdata = some 0 := by decide
theorem test_rdMisaligned11 : shows (exec (.rdMisaligned11 0x400) ((abc 0).withRdata 5)) State.rdata = some 0 := by decide

/-- NOP keeps DONE and the digest (P6). -/
theorem test_nop : shows (exec .nop abcDone) id = some abcDone := by decide

/-- STATUS after START is 0x11 (P1), and START clears ERR (R203). -/
theorem test_start_from_error :
    shows (exec .start { abc 8 with err := 4 }) statusWord = some 0x00000011 := by decide
theorem test_start_while_busy : shows (exec .start (abc 3)) id = some (abc 3) := by decide

/-- STATUS after an illegal command is 0x408, and the digest is hidden (P6). -/
theorem test_cmdIllegal_status : shows (exec (.cmdIllegal 2) abcDone) statusWord = some 0x00000408 := by decide
theorem test_cmdIllegal_hides_digest : shows (exec (.cmdIllegal 2) abcDone) (digestWord · 0) = some 0 := by decide

/-- A command in SCHED is dropped: STATUS stays 0x13 (P5). -/
theorem test_cmdBusy : shows (exec (.cmdBusy 2) (abc 3)) statusWord = some 0x00000013 := by decide

theorem test_rdCmd : shows (exec .rdCmd ((abc 0).withRdata 5)) State.rdata = some 0 := by decide
theorem test_wrStatus : shows (exec (.wrStatus 0xFFFFFFFF) (abc 0)) id = some (abc 0) := by decide

/-- STATUS in FOLD is 0x16 (P5), and after BUFFER_OVERRUN 0x308 (2.1). -/
theorem test_rdStatus_fold : shows (exec .rdStatus (abc 6)) State.rdata = some 0x00000016 := by decide
theorem test_rdStatus_overrun : shows (exec .rdStatus { abc 8 with err := 3 }) State.rdata = some 0x00000308 := by decide

/-- Each half of MSG_LEN keeps the other (R207, R208). -/
theorem test_wrMsgLenLo :
    shows (exec (.wrMsgLenLo 0x80000041) { abc 0 with msgLen := 0x20000000FFFFFFFF }) State.msgLen =
      some 0x2000000080000041 := by decide
theorem test_wrMsgLenHi :
    shows (exec (.wrMsgLenHi 0x80000001) { abc 0 with msgLen := 0x2000000000000003 }) State.msgLen =
      some 0x8000000100000003 := by decide
theorem test_wrMsgLenLo_busy : shows (exec (.wrMsgLenLo 16) (abc 3)) State.msgLen = some 3 := by decide

theorem test_rdMsgLenLo :
    shows (exec .rdMsgLenLo { abc 0 with msgLen := 0x1FFFFFFF80000003 }) State.rdata = some 0x80000003 := by decide
theorem test_rdMsgLenHi :
    shows (exec .rdMsgLenHi { abc 0 with msgLen := 0x1FFFFFFF80000003 }) State.rdata = some 0x1FFFFFFF := by decide

theorem test_wrDigest : shows (exec (.wrDigest 0 0) abcDone) id = some abcDone := by decide

/-- DIGEST7 of "abc" is F20015AD (1.2); DIGEST0 reads 0 in SCHED (P5). -/
theorem test_rdDigest_done : shows (exec (.rdDigest 7) abcDone) State.rdata = some 0xF20015AD := by decide
theorem test_rdDigest_busy : shows (exec (.rdDigest 0) { abc 3 with h := abcHash }) State.rdata = some 0 := by decide

/-- MSGWIN[1] <- 0x64656667: the most significant byte at the lowest index (R54). A second write replaces the bytes. -/
theorem test_wrMsgwin :
    shows (exec (.wrMsgwin 1 0x64656667) (abc 0)) (fun t => (t.mem.read 4, t.mem.read 5, t.mem.read 7, t.mem.read 3)) =
      some (some 0x64, some 0x65, some 0x67, some 0x00) := by decide
theorem test_wrMsgwin_busy : shows (exec (.wrMsgwin 0 0xFFFFFFFF) (abc 3)) State.mem = some (abc 3).mem := by decide

/-- MSGWIN[0] of "abc" reads 0x61626300 (P5). In a word with three written bytes those three lanes are known (R56). -/
theorem test_rdMsgwin : shows (exec (.rdMsgwin 0) (abc 3)) State.rdata = some 0x61626300 := by decide
theorem test_rdMsgwin_part_written :
    shows (exec (.rdMsgwin 0) { abc 0 with mem := [(0, 0x61), (2, 0x63), (3, 0x64)] }) State.draws = some 1 := by decide

theorem test_wrReserved : shows (exec (.wrReserved 0x800 7) (abc 0)) id = some (abc 0) := by decide
theorem test_rdReserved : shows (exec (.rdReserved 4) ((abc 0).withRdata 5)) State.rdata = some 0 := by decide

theorem test_esIdle : shows (exec .esIdle (abc 0)) id = some (abc 0) := by decide
theorem test_esDone : shows (exec .esDone abcDone) id = some abcDone := by decide
theorem test_esError : shows (exec .esError { abc 8 with err := 3 }) id = some { abc 8 with err := 3 } := by decide

/-- PAD (2.1): L = 56 gives two blocks; 2^61 is INPUT_TOO_LARGE, tested before BUFFER_OVERRUN. -/
theorem test_esPad_two_blocks :
    shows (exec .esPad { inPhase 1 with msgLen := 56 }) (fun t => (t.nblk, t.blk, t.phase, t.h[7])) =
      some (2, 0, 2, 0x5BE0CD19) := by decide
theorem test_esPad_errors :
    shows (exec .esPad { inPhase 1 with msgLen := 0x2000000000000000 }) statusWord = some 0x00000208 ∧
    shows (exec .esPad { inPhase 1 with msgLen := 4097 }) statusWord = some 0x00000308 ∧
    shows (exec .esPad { inPhase 1 with msgLen := 0x1FFFFFFFFFFFFFFF }) statusWord = some 0x00000308 ∧
    shows (exec .esPad { inPhase 1 with msgLen := 4096 }) State.nblk = some 65 := by decide

/-- LOAD of "abc" (2.2): 61626380, fourteen zeros, 00000018. -/
theorem test_esLoad_abc :
    shows (exec .esLoad (abc 2)) (fun t => (t.w.toList.take 16, t.t, t.phase)) =
      some ([0x61626380, 0, 0, 0, 0, 0, 0, 0, 0, 0, 0, 0, 0, 0, 0, 0x00000018], 16, 3) := by decide
/-- A message byte nothing has written faults and is named (R56). -/
theorem test_esLoad_unwritten :
    faultOf (exec .esLoad { abc 2 with mem := [(0, 0x61), (2, 0x63)] }) = some (.unwrittenRead 1) := by decide

/-- SCHED of "abc" (2.3): W[17] = 000F0000, and W[63] ends the phase (R146). -/
theorem test_esSched_abc :
    shows (exec .esSched { abc 3 with w := abcWords, t := 17 }) (fun t => (t.w[17], t.t, t.phase)) =
      some (0x000F0000, 18, 3) := by decide
theorem test_esSched_last :
    shows (exec .esSched { abc 3 with w := abcWords, t := 63 }) (fun t => (t.t, t.phase)) = some (64, 4) := by decide

/-- CINIT (R170). -/
theorem test_esCinit :
    shows (exec .esCinit { abc 4 with h := iv, t := 64 }) (fun t => (t.v, t.t, t.phase)) = some (iv, 0, 5) := by decide

/-- ROUND 0 and ROUND 63 of "abc" (2.4). -/
theorem test_esRound_first :
    shows (exec .esRound { abc 5 with v := iv, w := abcWords }) (fun t => (t.v, t.t, t.phase)) =
      some (#v[0x5D6AEBCD, 0x6A09E667, 0xBB67AE85, 0x3C6EF372, 0xFA2A4622, 0x510E527F, 0x9B05688C, 0x1F83D9AB], 1, 5) := by
  decide
theorem test_esRound_last :
    shows (exec .esRound { abc 5 with v := abcRound62, w := abcWords.set 63 0x12B1EDEB, t := 63 })
      (fun t => (t.v, t.t, t.phase)) = some (abcRound63, 64, 6) := by decide

/-- FOLD of "abc" (2.4): the digest, and DONE; with one more block to come, LOAD (R172). -/
theorem test_esFold_last :
    shows (exec .esFold { abc 6 with h := iv, v := abcRound63 }) (fun t => (t.h, t.blk, t.phase)) =
      some (abcHash, 1, 7) := by decide
theorem test_esFold_more :
    shows (exec .esFold { abc 6 with h := iv, v := abcRound63, nblk := 2 }) (fun t => (t.blk, t.phase)) = some (1, 2) := by
  decide

/-- The reserved codes (R89). -/
theorem test_esReserved :
    faultOf (exec .esReserved9 (inPhase 9)) = some .reservedPhase ∧
    faultOf (step (inPhase 15)) = some .reservedPhase ∧
    faultOf (step ((inPhase 9).withInputs [wr 0x00000000 0x00000001])) = some .reservedPhase ∧
    faultOf (step ((inPhase 15).withInputs [rd 0x00000004])) = some .reservedPhase := by decide

/-- The bit functions (2.3, 2.4). -/
theorem test_bit_functions :
    smallSigma0 0x12345678 = 0xE7FCE6EE ∧ smallSigma1 0x12345678 = 0xA1F78649 ∧
    bigSigma0 0x12345678 = 0x66146474 ∧ bigSigma1 0x12345678 = 0x3561ABDA ∧
    rotr 0x12345678 7 = 0xF02468AC ∧ rotr 0x12345678 31 = 0x2468ACF0 ∧ rotr 0x12345678 0 = 0x12345678 ∧
    shr 0x12345678 3 = 0x02468ACF ∧ shr 0xFFFFFFFF 3 = 0x1FFFFFFF ∧
    ch 0xF0F0F0F0 0xCCCCCCCC 0xAAAAAAAA = 0xCACACACA ∧ maj 0xF0F0F0F0 0xCCCCCCCC 0xAAAAAAAA = 0xE8E8E8E8 ∧
    (0xFFFFFFFF : Word) + 0x00000001 = 0x00000000 := by decide

/-- A host transaction and a reset input through the step. -/
theorem test_step_start :
    shows (step ((abc 0).withInputs [wr 0x00000000 0x00000001, .engine])) (fun t => (t.phase, t.inputs)) =
      some (1, [.engine]) := by decide
theorem test_step_reset :
    shows (step (abcDone.withInputs [.reset])) (fun t => (t.phase, t.err, t.msgLen, t.mem)) = some (0, 0, 0, []) := by
  decide

/-- The table words run as the first instruction after reset. -/
theorem test_withFetchWord :
    shows (step (State.reset.withFetchWord 64 0x0000000800000003)) State.msgLen = some 3 ∧
    shows (step (State.reset.withFetchWord 8 0x1)) State.nblk = some 1 ∧
    shows (step (State.reset.withFetchWord 72 0x10000000400000000)) State.inputs = some [] := by decide

/-- SHA-256's equations give the known answers of 1.1 and 1.2. -/
theorem test_refDigest_known_answers :
    refDigest [] = [0xe3, 0xb0, 0xc4, 0x42, 0x98, 0xfc, 0x1c, 0x14, 0x9a, 0xfb, 0xf4, 0xc8, 0x99, 0x6f, 0xb9, 0x24,
      0x27, 0xae, 0x41, 0xe4, 0x64, 0x9b, 0x93, 0x4c, 0xa4, 0x95, 0x99, 0x1b, 0x78, 0x52, 0xb8, 0x55] ∧
    refDigest [0x61, 0x62, 0x63] = [0xba, 0x78, 0x16, 0xbf, 0x8f, 0x01, 0xcf, 0xea, 0x41, 0x41, 0x40, 0xde, 0x5d, 0xae,
      0x22, 0x23, 0xb0, 0x03, 0x61, 0xa3, 0x96, 0x17, 0x7a, 0x9c, 0xb4, 0x10, 0xff, 0x61, 0xf2, 0x00, 0x15, 0xad] := by
  decide +kernel

/-! ## Witnesses: a concrete state and operands that meet the hypotheses of each statement together -/

theorem witness_DecodeOfEncodeIsTheInstruction :
    (Config.legalMsgCap 4096 ∧ (Instr.rdMsgwin 1023).wf 4096 = true ∧ (Instr.rdMsgwin 1023).fitsBusy true = true) ∧
    (Config.legalMsgCap 4 ∧ (Instr.cmdIllegal 2).wf 4 = true ∧ (Instr.cmdIllegal 2).fitsBusy false = true) := by decide

theorem witness_EncodeOfDecodeIsTheCanonicalForm : Config.legalMsgCap 4 ∧ Config.legalMsgCap 0xFFFFF000 := by decide

theorem witness_DecodedInstructionsAreWellFormed : Config.legalMsgCap 64 := by decide

/-- Each clause at the edges of its range, MSG_CAP = 64; no offset meets the premises of two clauses. -/
theorem witness_OffsetsAreDecodedInOrder :
    Config.legalMsgCap 64 ∧
    classify 64 0x00000001 = .misaligned 1 0 ∧ classify 64 0xFFFFFFFF = .misaligned 3 0x3FFFFFFF ∧
    classify 64 0x00000000 = .cmd ∧ classify 64 0x00000004 = .status ∧ classify 64 0x00000008 = .msgLenLo ∧
    classify 64 0x0000000C = .msgLenHi ∧ classify 64 0x00000020 = .digest 0 ∧ classify 64 0x0000003C = .digest 7 ∧
    classify 64 0x00001000 = .msgwin 0 ∧ classify 64 0x0000103C = .msgwin 15 ∧
    classify 64 0x00000010 = .reserved 4 ∧ classify 64 0x0000001C = .reserved 7 ∧
    classify 64 0x00000040 = .reserved 0x10 ∧ classify 64 0x00000FFC = .reserved 0x3FF ∧
    classify 64 0x00001040 = .reserved 0x410 ∧ classify 64 0xFFFFFFFC = .reserved 0x3FFFFFFF := by decide

/-- A state for each form of the next event. -/
theorem witness_StepRunsTheDecodedInstruction :
    (abc 1).inputs = [] ∧ ((abc 1).withInputs [.engine]).inputs = [.engine] ∧
    ((abc 1).withInputs [rd 4]).inputs = [.host (.read (TxWord.mk 4 0))] ∧ (abc 1).phase.toNat ≤ 8 ∧
    ((abc 1).withInputs [.reset]).inputs = [.reset] := by decide

theorem witness_CommandWritesFollowTheDispatch :
    ((abc 3).withInputs [wr 0 1]).inputs = [.host (.write 1)] ∧ TxWord.addr 1 = 0 ∧
    (abc 3).phase.toNat ≤ 8 ∧ (abc 0).phase.toNat ≤ 8 ∧ ((abc 0).withInputs [wr 0 1]).inputs = [.host (.write 1)] ∧
    ((abc 3).withInputs [wr 0 1]).busy = true ∧ ((abc 0).withInputs [wr 0 1]).busy = false ∧ TxWord.data 1 = 1 ∧
    TxWord.addr 0 = 0 ∧ TxWord.data 0 = 0 ∧
    TxWord.addr 2 = 0 ∧ TxWord.data 2 ≠ 0 ∧ TxWord.data 2 ≠ 1 := by decide

theorem witness_CommandsComplete :
    (abc 7).busy = false ∧ (0x100 : Word) ≠ 0 ∧ (0x100 : Word) ≠ 1 ∧ (abc 1).busy = true ∧ (abc 6).busy = true := by decide

/-- Each disjunct at its edges, MSG_CAP = 4096. -/
theorem witness_MisalignedAndReservedAccessesDoNothing :
    Config.legalMsgCap (abc 3).msgCap ∧ (abc 3).phase.toNat ≤ 8 ∧
    ((abc 3).withInputs [.host (.write 0x0000000100000001)]).inputs = [.host (.write 0x0000000100000001)] ∧
    ((abc 3).withInputs [.host (.read 0x0000001000000000)]).inputs = [.host (.read 0x0000001000000000)] ∧
    (TxWord.addr 0x0000000100000001).toNat % 4 ≠ 0 ∧
    (TxWord.addr 0x0000001000000000).toNat = 0x10 ∧ (TxWord.addr 0x0000001C00000000).toNat = 0x1C ∧
    (TxWord.addr 0x0000004000000000).toNat = 0x40 ∧ (TxWord.addr 0x00000FFC00000000).toNat = 0xFFC ∧
    (TxWord.addr 0x0000200000000000).toNat = 0x1000 + (abc 3).msgCap := by decide

theorem witness_WritesToReadOnlyRegistersDoNothing :
    Config.legalMsgCap abcDone.msgCap ∧ abcDone.phase.toNat ≤ 8 ∧
    (abcDone.withInputs [.host (.write 0x0000003C00000000)]).inputs = [.host (.write 0x0000003C00000000)] ∧
    (TxWord.addr 0x0000003C00000000).toNat = 0x20 + 4 * 7 ∧ (TxWord.addr 0x0000000400000000).toNat = 4 := by decide

theorem witness_LengthWritesSetTheirHalf : (abc 1).busy = true ∧ (abc 8).busy = false := by decide

theorem witness_WindowWritesStoreBigEndianLanes :
    Instr.windowWord (abc 0).msgCap 0 ∧ Instr.windowWord (abc 0).msgCap 1023 ∧ (abc 0).busy = false ∧ (abc 6).busy = true := by
  decide

theorem witness_HostWritesWhileBusyAreDropped :
    ((abc 3).withInputs [wr 0x1000 5]).inputs = [.host (.write 0x0000100000000005)] ∧
    ((abc 3).withInputs [wr 0x1000 5]).busy = true := by decide

theorem witness_DigestReadsAreGatedByDone : abcDone.phase = 7 ∧ (abc 8).phase ≠ 7 := by decide

/-- A window word with every byte written, and one with none. -/
theorem witness_WindowReadsReturnTheWrittenBytes :
    Instr.windowWord (abc 0).msgCap 0 ∧ Instr.windowWord (abc 0).msgCap 1023 ∧
    (abc 0).mem.read 0 = some 0x61 ∧ (abc 0).mem.read 1 = some 0x62 ∧ (abc 0).mem.read 2 = some 0x63 ∧
    (abc 0).mem.read 3 = some 0x00 ∧ (∀ i, i < 4 → ((abc 0).mem.read (4 * (0 : BitVec 30).toNat + i)).isSome = true) ∧
    (abc 0).mem.read 4092 = none := by decide

theorem witness_WindowWordsReadBack :
    Config.legalMsgCap (abc 0).msgCap ∧ Instr.windowWord (abc 0).msgCap 1023 ∧
    (abc 0).phase.toNat ≤ 8 ∧ ((abc 0).withInputs [wr 0x1FFC 7, rd 0x1FFC]).busy = false ∧
    ((abc 0).withInputs [wr 0x1FFC 7, rd 0x1FFC]).inputs =
      [.host (.write (TxWord.mk (0x1000 + ((1023 : BitVec 30) ++ (0 : BitVec 2))) 7)),
       .host (.read (TxWord.mk (0x1000 + ((1023 : BitVec 30) ++ (0 : BitVec 2))) 0))] := by decide

theorem witness_HostReadsHaveNoSideEffects :
    (abc 5).phase.toNat ≤ 8 ∧ ((abc 5).withInputs [rd 0x1004]).inputs = [.host (.read 0x0000100400000000)] := by decide

theorem witness_HostNeverWritesTheEngineRegisters :
    (abc 7).phase.toNat ≤ 8 ∧ ((abc 7).withInputs [wr 0 1]).inputs = [.host (.write 1)] := by decide

/-- Each of the three outcomes of PAD at the edge of its range, MSG_CAP = 4096. -/
theorem witness_PadStepChecksTheLengthAndBeginsTheBlocks :
    (2 ^ 61 ≤ (0x2000000000000000 : BitVec 64).toNat) ∧
    ((0x1FFFFFFFFFFFFFFF : BitVec 64).toNat < 2 ^ 61 ∧ (inPhase 1).msgCap < (0x1FFFFFFFFFFFFFFF : BitVec 64).toNat) ∧
    ((4097 : BitVec 64).toNat < 2 ^ 61 ∧ (inPhase 1).msgCap < (4097 : BitVec 64).toNat) ∧
    ((4096 : BitVec 64).toNat < 2 ^ 61 ∧ (4096 : BitVec 64).toNat ≤ (inPhase 1).msgCap) ∧
    (0 : BitVec 64).toNat ≤ (inPhase 1).msgCap := by decide

/-- Both sides of the 55/56 boundary. -/
theorem witness_PadBlockCountIsTheSmallestThatFits :
    Config.legalMsgCap (inPhase 1).msgCap ∧ (55 : BitVec 64).toNat ≤ (inPhase 1).msgCap ∧ (55 : BitVec 64).toNat % 64 ≤ 55 ∧
    56 ≤ (56 : BitVec 64).toNat % 64 ∧
    shows (exec .esPad { inPhase 1 with msgLen := 55 }) State.nblk = some 1 ∧
    shows (exec .esPad { inPhase 1 with msgLen := 56 }) State.nblk = some 2 := by decide

theorem witness_PaddedMessageHasTheRuledBytes :
    (abc 2).msgLen.toNat < 2 ^ 61 ∧ (abc 2).nblk.toNat = ((abc 2).msgLen.toNat + 72) / 64 ∧
    (abc 2).mem.read 2 = some 0x63 ∧ 2 < (abc 2).msgLen.toNat ∧ 4 < 64 * (abc 2).nblk.toNat - 8 := by decide

theorem witness_LoadStepParsesTheBlock :
    (abc 2).blk.toNat < (abc 2).nblk.toNat ∧
    (∀ j, 64 * (abc 2).blk.toNat ≤ j → j < 64 * (abc 2).blk.toNat + 64 → j < (abc 2).msgLen.toNat →
      ((abc 2).mem.read j).isSome = true) := by
  refine ⟨by decide, fun j _ _ h => ?_⟩
  change j < 3 at h
  interval_cases j <;> decide

theorem witness_LoadStepFaultsOnAnUnwrittenByte :
    let s : State := { abc 2 with mem := [(0, 0x61), (2, 0x63)] }
    s.blk.toNat < s.nblk.toNat ∧ 64 * s.blk.toNat ≤ 1 ∧ 1 < 64 * s.blk.toNat + 64 ∧ 1 < s.msgLen.toNat ∧
    s.mem.read 1 = none := by decide

theorem witness_SchedStepComputesTheNextWord :
    16 ≤ ({ abc 3 with t := 16 } : State).t.toNat ∧ ({ abc 3 with t := 16 } : State).t.toNat < 63 ∧
    ({ abc 3 with t := 63 } : State).t.toNat = 63 := by decide

theorem witness_RoundStepRotatesTheVariables :
    ({ abc 5 with t := 0 } : State).t.toNat < 63 ∧ ({ abc 5 with t := 63 } : State).t.toNat = 63 := by decide

theorem witness_FoldStepAddsAndAdvances :
    (abc 6).blk.toNat + 1 = (abc 6).nblk.toNat ∧
    ({ abc 6 with nblk := 2 } : State).blk.toNat + 1 ≠ ({ abc 6 with nblk := 2 } : State).nblk.toNat := by decide

theorem witness_QuiescentPhasesHaveNoStep :
    (abc 0).phase = 0 ∧ (abc 7).phase = 7 ∧ (abc 8).phase = 8 ∧ (abc 0).engineNext :=
  ⟨rfl, rfl, rfl, .inl rfl⟩

theorem witness_ReservedPhasesFault :
    9 ≤ (inPhase 9).phase.toNat ∧ (inPhase 9).inputs.head? ≠ some .reset ∧
    ((inPhase 9).withInputs [rd 4]).inputs.head? ≠ some .reset ∧ (abc 1).phase.toNat ≤ 8 ∧ ∃ t, step (abc 1) = .next t :=
  ⟨by decide, by decide, by decide, by decide, _, rfl⟩

/-- Each clause at its edges. -/
theorem witness_CountersOutOfRangeFault :
    (inPhase 2).nblk.toNat ≤ (inPhase 2).blk.toNat ∧ (15 : BitVec 7).toNat < 16 ∧ 64 ≤ (64 : BitVec 7).toNat ∧
    faultOf (exec .esLoad (inPhase 2)) = some .invariant ∧
    faultOf (exec .esSched { inPhase 3 with t := 15 }) = some .invariant ∧
    faultOf (exec .esSched { inPhase 3 with t := 64 }) = some .invariant ∧
    faultOf (exec .esRound { inPhase 5 with t := 64 }) = some .invariant := by decide

/-- The last bit, and a rotation by 31. -/
theorem witness_RotationAndShiftBitByBit : (31 : Nat) ≤ 31 ∧ (0 : Nat) < 32 ∧ (31 : Nat) < 32 := by decide

theorem witness_SigmaFunctionsBitByBit : (31 : Nat) < 32 := by decide

theorem witness_ChoiceAndMajorityBitByBit : (31 : Nat) < 32 := by decide

/-- The first and the last entry of each ROM (R161, R162). -/
theorem witness_RomsAreFractionsOfRoots :
    (0 < 8 ∧ 7 < 8 ∧ 63 < 64) ∧ ivRom[0] = 0x6A09E667 ∧ ivRom[7] = 0x5BE0CD19 ∧ kRom[0] = 0x428A2F98 ∧
    kRom[63] = 0xC67178F2 := by decide

theorem witness_ErrorEntryWritesErrAndPhaseOnly : (raiseError .badCommand abcDone).engineNext := .inl rfl

/-- A step of the engine, of the host and of the reset input. -/
theorem witness_PhaseAndErrMoveOnlyByTheTable :
    (∃ t, step (abc 2) = .next t) ∧ (∃ t, step (abcDone.withInputs [wr 0 2]) = .next t) ∧
    (∃ t, step (abcDone.withInputs [.reset]) = .next t) :=
  ⟨⟨_, rfl⟩, ⟨_, rfl⟩, ⟨_, rfl⟩⟩

theorem witness_ResetLeavesTheRuledValues : ((abc 5).withInputs [.reset, .engine]).inputs = [.reset, .engine] := rfl

/-- "abc" about to be loaded meets the invariant. -/
theorem abc_inv : (abc 2).Inv where
  capLegal := by decide
  memWf := by decide
  memInBuffer := by decide
  phaseNamed := by decide
  errRaised := .inl rfl
  errorPhase := by decide
  blocks := fun _ => by decide
  schedT := fun h => absurd h (by decide)
  roundT := fun h => absurd h (by decide)

theorem witness_EveryStepKeepsTheInvariant : (abc 2).Inv ∧ ∃ t, step (abc 2) = .next t :=
  ⟨abc_inv, _, rfl⟩

/-- Both outcomes: a next state, and a LOAD that finds the message unwritten. -/
theorem witness_OnlyUnwrittenReadsStopTheMachine :
    ((abc 2).Inv ∧ ∃ t, step (abc 2) = .next t) ∧
    (({ abc 2 with mem := [] } : State).Inv ∧
      faultOf (step ({ abc 2 with mem := [] } : State)) = some (.unwrittenRead 0)) := by
  have h := abc_inv
  refine ⟨⟨h, _, rfl⟩, ⟨h.capLegal, by simp, by simp, h.phaseNamed, h.errRaised, h.errorPhase, h.blocks, h.schedT, h.roundT⟩,
    by decide⟩

theorem witness_InputsAreFrozenDuringAJob :
    ((abc 1).withInputs [wr 8 5]).busy = true ∧ ((abc 1).withInputs [wr 8 5]).inputs.head? ≠ some .reset ∧
    ∃ t, step ((abc 1).withInputs [wr 8 5]) = .next t :=
  ⟨by decide, by decide, _, rfl⟩

theorem witness_EngineNeverWritesTheMessage : (abc 4).engineNext ∧ ∃ t, step (abc 4) = .next t :=
  ⟨.inl rfl, _, rfl⟩

/-- A NOP, and a write that is no command, in DONE. -/
theorem witness_DigestStaysUntilTheNextCommand :
    (abcDone.withInputs [wr 0 0]).phase = 7 ∧ (∃ t, step (abcDone.withInputs [wr 0 0]) = .next t) ∧
    (abcDone.withInputs [wr 0 0]).inputs.head? ≠ some .reset ∧
    (∀ word, (abcDone.withInputs [wr 0 0]).inputs.head? = some (.host (.write word)) → TxWord.addr word = 0 →
      TxWord.data word = 0) := by
  refine ⟨rfl, ⟨_, rfl⟩, by decide, fun word h _ => ?_⟩
  have hw : TxWord.mk 0 0 = word := by simpa [State.withInputs, wr] using h
  subst hw
  decide

/-- START, an illegal command, and NOP. -/
theorem witness_ACommandInDoneHidesTheDigest :
    (abcDone.withInputs [wr 0 1]).phase = 7 ∧ (abcDone.withInputs [wr 0 1]).inputs = [.host (.write 1)] ∧
    TxWord.addr 1 = 0 ∧ TxWord.data 1 ≠ 0 ∧ TxWord.addr 2 = 0 ∧ TxWord.data 2 ≠ 0 ∧ TxWord.addr 0 = 0 ∧
    TxWord.data 0 = 0 := by decide

theorem witness_DigestBytesAreBigEndianWords : abcDone.phase = 7 ∧ digestBytes abcDone = refDigest [0x61, 0x62, 0x63] :=
  ⟨rfl, by decide +kernel⟩

theorem witness_SchedPhaseComputesTheSchedule :
    ({ abc 3 with t := 16 } : State).phase = 3 ∧ ({ abc 3 with t := 16 } : State).t = 16 ∧
    ({ abc 3 with t := 16 } : State).inputs = [] := by decide

theorem witness_CompressorPerformsTheCompressionFunction : (abc 4).phase = 4 ∧ (abc 4).inputs = [] := by decide

/-- "abc" is in the buffer, whatever the phase and the events to come. -/
theorem abc_holdsMessage (p : BitVec 4) (es : List Event) : ((abc p).withInputs es).HoldsMessage [0x61, 0x62, 0x63] where
  length := rfl
  fits := Nat.le_of_ble_eq_true rfl
  bytes := fun j hj => by
    change j < 3 at hj
    interval_cases j <;> rfl

/-- The last step of the job over "abc": FOLD, with the values of 2.4 in H and V. -/
def abcFold : State := { abc 6 with h := iv, v := abcRound63 }

/-- Those values are what the equations give before the last step. -/
theorem abcFold_hashing : abcFold.Hashing [0x61, 0x62, 0x63] where
  message := ⟨rfl, Nat.le_of_ble_eq_true rfl, (abc_holdsMessage 6 []).bytes⟩
  progress := .inr ⟨by decide, by decide, by decide, .inr (.inr (.inr (.inr
    ⟨rfl, by unfold State.rounded; decide +kernel⟩)))⟩

theorem witness_EveryEventAdvancesTheJob :
    Config.legalMsgCap (abc 1).msgCap ∧ ((abc 1).withInputs [wr 0 1]).Hashing [0x61, 0x62, 0x63] ∧
    ((abc 1).withInputs [.reset]).Hashing [0x61, 0x62, 0x63] :=
  ⟨by decide, ⟨abc_holdsMessage 1 _, .inl rfl⟩, ⟨abc_holdsMessage 1 _, .inl rfl⟩⟩

/-- The job's first step, by the engine and by a host transaction, and its last. -/
theorem witness_EngineStepsCountDownTheJob :
    Config.legalMsgCap (abc 1).msgCap ∧
    (((abc 1).withInputs []).Hashing [0x61, 0x62, 0x63] ∧ ((abc 1).withInputs []).engineNext ∧
      ∃ t, step ((abc 1).withInputs []) = .next t) ∧
    (((abc 1).withInputs [rd 4]).Hashing [0x61, 0x62, 0x63] ∧ ∃ t, step ((abc 1).withInputs [rd 4]) = .next t) ∧
    (abc 1).phase = 1 ∧ (abc 1).stepsLeft = 116 ∧
    (abcFold.Hashing [0x61, 0x62, 0x63] ∧ abcFold.stepsLeft = 1 ∧ shows (step abcFold) (fun t => (t.phase, t.stepsLeft)) = some (7, 0)) :=
  ⟨by decide, ⟨⟨abc_holdsMessage 1 _, .inl rfl⟩, .inl rfl, _, rfl⟩, ⟨⟨abc_holdsMessage 1 _, .inl rfl⟩, _, rfl⟩,
    rfl, by decide, abcFold_hashing, by decide, by decide⟩

theorem witness_JobDeliversTheDigest :
    Config.legalMsgCap (abc 1).msgCap ∧ ((abc 1).withInputs []).HoldsMessage [0x61, 0x62, 0x63] ∧
    ((abc 1).withInputs []).phase = 1 ∧ ((abc 1).withInputs []).inputs = [] ∧ 0 < 1 + 115 * ((3 + 72) / 64) :=
  ⟨by decide, abc_holdsMessage 1 _, rfl, rfl, by decide⟩

theorem witness_JobEndsInTheDigestInEveryInterleaving :
    Config.legalMsgCap (abc 1).msgCap ∧ ((abc 1).withInputs [rd 4, .engine, wr 0 1]).HoldsMessage [0x61, 0x62, 0x63] ∧
    ((abc 1).withInputs [rd 4, .engine, wr 0 1]).phase = 1 ∧
    Event.reset ∉ ((abc 1).withInputs [rd 4, .engine, wr 0 1]).inputs :=
  ⟨by decide, abc_holdsMessage 1 _, rfl, by decide⟩

/-- Reset meets the invariant, with the script of "abc" to come. -/
theorem witness_HostSequenceHashesTheMessage :
    (State.reset.withInputs (hashScript [0x61, 0x62, 0x63])).Inv ∧
    (State.reset.withInputs (hashScript [0x61, 0x62, 0x63])).busy = false ∧
    [0x61, 0x62, (0x63 : Byte)].length ≤ (State.reset.withInputs (hashScript [0x61, 0x62, 0x63])).msgCap ∧
    (State.reset.withInputs (hashScript [0x61, 0x62, 0x63])).inputs = hashScript [0x61, 0x62, 0x63] := by
  refine ⟨⟨by decide, by decide, by simp [State.withInputs, State.reset], by decide, .inl rfl, by decide, fun h => ?_,
    fun h => ?_, fun h => ?_⟩, by decide, by decide, rfl⟩
  · exact absurd h (by unfold State.inBlocks; decide)
  · exact absurd h (by decide)
  · exact absurd h (by decide)

theorem witness_IdleReturnsOnlyByReset :
    ((abc 7).withInputs [wr 0 1, rd 4]).phase ≠ 0 ∧ Event.reset ∉ ((abc 7).withInputs [wr 0 1, rd 4]).inputs ∧
    ∃ t, runSteps 3 ((abc 7).withInputs [wr 0 1, rd 4]) = .next t :=
  ⟨by decide, by decide, _, rfl⟩

/-- Two states in PAD that differ in H, V, W and T, and both outcomes of a step. -/
theorem witness_HostSameIsKeptByEveryStep :
    (abc 1).HostSame { abc 1 with h := iv, v := iv, w := abcWords, t := 5, blk := 9 } ∧
    (∃ t, step (abc 1) = .next t) ∧
    ({ abc 2 with mem := [] } : State).HostSame { abc 2 with mem := [], v := iv, w := abcWords, t := 5 } ∧
    faultOf (step { abc 2 with mem := [] }) = some (.unwrittenRead 0) := by
  refine ⟨⟨rfl, rfl, rfl, rfl, rfl, rfl, rfl, rfl, fun h => ?_, fun h => ?_, fun h => ?_, fun h => ?_, fun h => ?_, fun h => ?_⟩,
    ⟨_, rfl⟩, ⟨rfl, rfl, rfl, rfl, rfl, rfl, rfl, rfl, fun _ => rfl, fun _ => ⟨rfl, rfl⟩, fun h => ?_, fun h => ?_, fun h => ?_,
    fun h => ?_⟩, by decide⟩
  · exact absurd h (by unfold State.inBlocks; decide)
  · exact absurd h (by unfold State.inBlocks; decide)
  all_goals exact absurd h (by decide)

theorem witness_UnspecifiedResetValuesAreNeverSeen :
    State.reset.phase = 0 ∧ ∃ t, runSteps 2 (State.reset.withInputs [wr 8 0, wr 0 1]) = .next t :=
  ⟨rfl, _, rfl⟩

end Sys2Proof.Tests
end

section
/-! PROOFS. What a host cannot tell apart stays so under every event (O59), and no host transaction writes the engine's
registers (O23). The relation `State.HostSame` is carried through the shared updates first, then through each host
instruction and each engine step, and last through the step. -/

namespace Sys2Proof

/-- The codes of R88 are pairwise different. -/
@[simp] theorem Phase.code_inj {p q : Phase} : p.code = q.code ↔ p = q := by
  cases p <;> cases q <;> simp [Phase.code]

end Sys2Proof

namespace Sys2Proof.Machine

variable {s u : State}

/-! ## What the host reads from two states it cannot tell apart -/

theorem State.HostSame.refl (s : State) : s.HostSame s :=
  ⟨rfl, rfl, rfl, rfl, rfl, rfl, rfl, rfl, fun _ => rfl, fun _ => ⟨rfl, rfl⟩, fun _ => ⟨rfl, fun _ _ _ => rfl⟩, fun _ => rfl,
    fun _ => ⟨rfl, rfl⟩, fun _ => rfl⟩

theorem State.HostSame.busy_eq (h : s.HostSame u) : u.busy = s.busy := State.busy_congr h.phase

theorem State.HostSame.statusWord_eq (h : s.HostSame u) : statusWord u = statusWord s := by
  simp only [statusWord, h.err, h.busy_eq, h.phase]

theorem State.HostSame.msgLenLo_eq (h : s.HostSame u) : msgLenLo u = msgLenLo s := by
  simp only [msgLenLo, h.msgLen]

theorem State.HostSame.msgLenHi_eq (h : s.HostSame u) : msgLenHi u = msgLenHi s := by
  simp only [msgLenHi, h.msgLen]

/-- H is seen in DONE alone, and there the two states agree on it (R213). -/
theorem State.HostSame.digestWord_eq (h : s.HostSame u) (i : BitVec 3) : digestWord u i = digestWord s i := by
  unfold digestWord
  rw [h.phase]
  split_ifs with hd
  · rw [h.hash (.inr hd)]
  · rfl

/-! ## The shared updates -/

theorem State.HostSame.withInputs (h : s.HostSame u) (es : List Event) : (s.withInputs es).HostSame (u.withInputs es) :=
  { h with inputs := rfl }

theorem State.HostSame.readReturns (h : s.HostSame u) {x y : Word} (hxy : y = x) :
    (readReturns x s).HostSame (readReturns y u) :=
  { h with rdata := hxy }

theorem State.HostSame.drawn (h : s.HostSame u) (n : Nat) : (s.drawn n).HostSame (u.drawn n) :=
  { h with draws := congrArg (· + n) h.draws }

theorem State.HostSame.withMem (h : s.HostSame u) (m : Memory) : (s.withMem m).HostSame (u.withMem m) :=
  { h with mem := rfl }

theorem State.HostSame.setMsgLenLo (h : s.HostSame u) (d : Word) : (setMsgLenLo d s).HostSame (setMsgLenLo d u) :=
  { h with msgLen := congrArg (· ++ d) h.msgLenHi_eq }

theorem State.HostSame.setMsgLenHi (h : s.HostSame u) (d : Word) : (setMsgLenHi d s).HostSame (setMsgLenHi d u) :=
  { h with msgLen := congrArg (d ++ ·) h.msgLenLo_eq }

/-- PAD and ERROR use no hidden register before it is written, so any update that ends there keeps the relation. -/
theorem State.HostSame.withErr_withPhase (h : s.HostSame u) (e : ErrCode) {p : Phase} (hp : p = .pad ∨ p = .error) :
    ((s.withErr e).withPhase p).HostSame ((u.withErr e).withPhase p) := by
  rcases hp with rfl | rfl
  all_goals
    exact { h with
      phase := rfl
      err := rfl
      hash := by simp [State.inBlocks]
      counters := by simp [State.inBlocks]
      schedule := by simp
      words := by simp
      rounds := by simp
      vars := by simp }

theorem State.HostSame.raiseError (h : s.HostSame u) (code : ErrCode) : (raiseError code s).HostSame (raiseError code u) :=
  h.withErr_withPhase code (.inr rfl)

theorem State.HostSame.beginJob (h : s.HostSame u) : (beginJob s).HostSame (beginJob u) :=
  h.withErr_withPhase .noError (.inl rfl)

/-- BUSY agrees, so an input write is dropped in both states or lands in both. -/
theorem State.HostSame.unlessBusy (h : s.HostSame u) {f : State → State} (hf : (f s).HostSame (f u)) :
    (unlessBusy f s).HostSame (unlessBusy f u) := by
  unfold Machine.unlessBusy
  rw [h.busy_eq]
  split_ifs
  · exact h
  · exact hf

/-- The reset input overwrites every register the states may differ in, with the same draws (R270). -/
theorem State.HostSame.resetInput_eq (h : s.HostSame u) : resetInput u = resetInput s := by
  simp only [resetInput, h.msgCap, h.inputs, h.rdata, h.draws]

/-- A byte read gives the same byte, drawn or stored, and draws alike. -/
theorem State.HostSame.hostReadByte (h : s.HostSame u) (j : Nat) :
    (u.hostReadByte j).1 = (s.hostReadByte j).1 ∧ (s.hostReadByte j).2.HostSame (u.hostReadByte j).2 := by
  unfold State.hostReadByte
  rw [h.mem, h.draws]
  cases s.mem.read j with
  | none => exact ⟨rfl, h.drawn 1⟩
  | some b => exact ⟨rfl, h⟩

theorem State.HostSame.hostReadWord (h : s.HostSame u) (k : Nat) :
    (u.hostReadWord k).1 = (s.hostReadWord k).1 ∧ (s.hostReadWord k).2.HostSame (u.hostReadWord k).2 := by
  obtain ⟨e0, h0⟩ := h.hostReadByte (4 * k)
  obtain ⟨e1, h1⟩ := h0.hostReadByte (4 * k + 1)
  obtain ⟨e2, h2⟩ := h1.hostReadByte (4 * k + 2)
  obtain ⟨e3, h3⟩ := h2.hostReadByte (4 * k + 3)
  exact ⟨by simp only [State.hostReadWord, e0, e1, e2, e3], h3⟩

/-! ## Outcomes a host cannot tell apart -/

/-- Both steps answer, with states the host cannot tell apart, or both stop with the same fault. -/
inductive OutcomesHostSame :
    Host.Outcome State Fault Refusal → Host.Outcome State Fault Refusal → Prop where
  | next {t t' : State} (h : t.HostSame t') : OutcomesHostSame (.next t) (.next t')
  | fault (r : Fault) : OutcomesHostSame (.fault r) (.fault r)

theorem OutcomesHostSame.of_next {o o' : Host.Outcome State Fault Refusal} {t : State} (h : OutcomesHostSame o o')
    (ho : o = .next t) : ∃ t', o' = .next t' ∧ t.HostSame t' := by
  cases h with
  | next h =>
    obtain rfl := Host.Outcome.next.inj ho
    exact ⟨_, rfl, h⟩
  | fault r => cases ho

theorem OutcomesHostSame.of_fault {o o' : Host.Outcome State Fault Refusal} {f : Fault} (h : OutcomesHostSame o o')
    (ho : o = .fault f) : o' = .fault f := by
  cases h with
  | next h => cases ho
  | fault r => exact ho

/-! ## Host transactions -/

theorem State.HostSame.exec_decodeRead (h : s.HostSame u) (cap : Nat) (word : TxWord) :
    OutcomesHostSame (exec (decodeRead cap word) s) (exec (decodeRead cap word) u) := by
  unfold decodeRead
  cases classify cap (TxWord.addr word) with
  | misaligned low a =>
    dsimp only
    split_ifs <;> exact .next (h.readReturns rfl)
  | cmd => exact .next (h.readReturns rfl)
  | status => exact .next (h.readReturns h.statusWord_eq)
  | msgLenLo => exact .next (h.readReturns h.msgLenLo_eq)
  | msgLenHi => exact .next (h.readReturns h.msgLenHi_eq)
  | digest i => exact .next (h.readReturns (h.digestWord_eq i))
  | msgwin k =>
    obtain ⟨he, hk⟩ := h.hostReadWord k.toNat
    exact .next (hk.readReturns he)
  | reserved a => exact .next (h.readReturns rfl)

theorem State.HostSame.exec_decodeCommand (h : s.HostSame u) (busy : Bool) (d : Word) :
    OutcomesHostSame (exec (decodeCommand busy d) s) (exec (decodeCommand busy d) u) := by
  unfold decodeCommand
  split_ifs
  · exact .next h
  · exact .next h
  · exact .next (h.unlessBusy h.beginJob)
  · exact .next (h.unlessBusy (h.raiseError .badCommand))

theorem State.HostSame.exec_decodeWrite (h : s.HostSame u) (cap : Nat) (busy : Bool) (word : TxWord) :
    OutcomesHostSame (exec (decodeWrite cap busy word) s) (exec (decodeWrite cap busy word) u) := by
  unfold decodeWrite
  cases classify cap (TxWord.addr word) with
  | misaligned low a =>
    dsimp only
    split_ifs <;> exact .next h
  | cmd => exact h.exec_decodeCommand busy (TxWord.data word)
  | status => exact .next h
  | msgLenLo => exact .next (h.unlessBusy (h.setMsgLenLo _))
  | msgLenHi => exact .next (h.unlessBusy (h.setMsgLenHi _))
  | digest i => exact .next h
  | msgwin k =>
    refine .next (h.unlessBusy ?_)
    rw [h.mem]
    exact h.withMem _
  | reserved a => exact .next h

theorem State.HostSame.exec_decodeHost (h : s.HostSame u) (cap : Nat) (busy : Bool) (x : Transaction) :
    OutcomesHostSame (exec (decodeHost cap busy x) s) (exec (decodeHost cap busy x) u) := by
  cases x with
  | read word => exact h.exec_decodeRead cap word
  | write word => exact h.exec_decodeWrite cap busy word

/-! ## Engine steps -/

/-- PAD reads the visible state alone, and writes what LOAD reads (R110). -/
theorem State.HostSame.execEsPad (h : s.HostSame u) : OutcomesHostSame (execEsPad s) (execEsPad u) := by
  unfold Machine.execEsPad
  rw [h.msgLen, h.msgCap]
  split_ifs
  · exact .next (h.raiseError _)
  · exact .next (h.raiseError _)
  · exact .next { h with
      phase := rfl
      hash := fun _ => rfl
      counters := fun _ => ⟨rfl, by simp [h.msgLen]⟩
      schedule := by simp
      words := by simp
      rounds := by simp
      vars := by simp }

/-- LOAD reads the block of the same message, and SCHED finds the same W[0..15] and T = 16 (R117). -/
theorem State.HostSame.execEsLoad (h : s.HostSame u) (hp : s.phase = Phase.load.code) :
    OutcomesHostSame (execEsLoad s) (execEsLoad u) := by
  have hb : s.inBlocks := .inl hp
  obtain ⟨hblk, hnblk⟩ := h.counters hb
  unfold Machine.execEsLoad
  rw [hblk, hnblk, State.padWords_congr h.msgLen hnblk h.mem]
  split_ifs
  · cases hw : s.padWords (64 * s.blk.toNat) 16 with
    | error j => exact .fault _
    | ok xs =>
      obtain ⟨hlen, -⟩ := State.padWords_eq_ok.mp hw
      refine .next { h with
        phase := rfl
        hash := fun _ => h.hash (.inl hb)
        counters := fun _ => ⟨rfl, rfl⟩
        schedule := fun _ => ⟨rfl, fun i hi (h16 : i < 16) => ?_⟩
        words := by simp
        rounds := by simp
        vars := by simp }
      simp [getElem_loadWords, hlen, h16]
  · exact .fault _

/-- A schedule word depends on the words before it alone (R145). -/
theorem nextScheduleWord_congr {w w' : Vector Word 64} {t : Nat} (ht : 16 ≤ t ∧ t < 64)
    (hw : ∀ i, (hi : i < 64) → i < t → w'[i] = w[i]) : nextScheduleWord w' t ht = nextScheduleWord w t ht := by
  unfold nextScheduleWord
  rw [hw (t - 2) (by omega) (by omega), hw (t - 7) (by omega) (by omega), hw (t - 15) (by omega) (by omega),
    hw (t - 16) (by omega) (by omega)]

/-- SCHED adds the same word T to both schedules; when it was the last, the whole of W agrees (R146). -/
theorem State.HostSame.execEsSched (h : s.HostSame u) (hp : s.phase = Phase.sched.code) :
    OutcomesHostSame (execEsSched s) (execEsSched u) := by
  have hb : s.inBlocks := .inr (.inl hp)
  obtain ⟨ht, hw⟩ := h.schedule hp
  unfold Machine.execEsSched
  simp only [ht]
  split_ifs with hr
  · have hagree : ∀ i, (hi : i < 64) → i < s.t.toNat + 1 →
        (u.w.set s.t.toNat (nextScheduleWord u.w s.t.toNat hr) hr.2)[i] =
          (s.w.set s.t.toNat (nextScheduleWord s.w s.t.toNat hr) hr.2)[i] := by
      intro i hi hlt
      rw [Vector.getElem_set, Vector.getElem_set, nextScheduleWord_congr hr hw]
      split_ifs with hit
      · rfl
      · exact hw i hi (by omega)
    refine .next { h with
      phase := rfl
      hash := fun _ => h.hash (.inl hb)
      counters := fun _ => h.counters hb
      schedule := fun _ => ⟨rfl, fun i hi hlt => hagree i hi ?_⟩
      words := fun hc => Vector.ext fun i hi => hagree i hi ?_
      rounds := ?_
      vars := ?_ }
    · exact hlt.trans_eq (toNat_countStep_t .sched .cinit hr.2)
    · rw [countStep_phase] at hc
      split_ifs at hc with h64
      · exact h64 ▸ hi
      · simp at hc
    all_goals
      rw [countStep_phase]
      split_ifs <;> simp
  · exact .fault _

/-- CINIT copies the same H into V and clears T (R170). -/
theorem State.HostSame.execEsCinit (h : s.HostSame u) (hp : s.phase = Phase.cinit.code) :
    OutcomesHostSame (execEsCinit s) (execEsCinit u) :=
  have hb : s.inBlocks := .inr (.inr (.inl hp))
  .next { h with
    phase := rfl
    hash := fun _ => h.hash (.inl hb)
    counters := fun _ => h.counters hb
    schedule := by simp
    words := fun _ => h.words (.inl hp)
    rounds := fun _ => ⟨rfl, h.hash (.inl hb)⟩
    vars := by simp }

/-- ROUND reads V, T and W, on all of which the states agree (R171). -/
theorem State.HostSame.execEsRound (h : s.HostSame u) (hp : s.phase = Phase.round.code) :
    OutcomesHostSame (execEsRound s) (execEsRound u) := by
  have hb : s.inBlocks := .inr (.inr (.inr (.inl hp)))
  have hw := h.words (.inr hp)
  obtain ⟨ht, hv⟩ := h.rounds hp
  unfold Machine.execEsRound
  simp only [ht, hv, hw]
  split_ifs with hr
  · refine .next { h with
      phase := rfl
      hash := fun _ => h.hash (.inl hb)
      counters := fun _ => h.counters hb
      schedule := ?_
      words := fun _ => rfl
      rounds := fun _ => ⟨rfl, rfl⟩
      vars := fun _ => rfl }
    rw [countStep_phase]
    split_ifs <;> simp
  · exact .fault _

/-- FOLD adds the same V to the same H, and the same counters choose the phase that follows (R172). -/
theorem State.HostSame.execEsFold (h : s.HostSame u) (hp : s.phase = Phase.fold.code) :
    OutcomesHostSame (execEsFold s) (execEsFold u) := by
  have hb : s.inBlocks := .inr (.inr (.inr (.inr hp)))
  have hh := h.hash (.inl hb)
  have hv := h.vars hp
  obtain ⟨hblk, hnblk⟩ := h.counters hb
  unfold Machine.execEsFold
  rw [hh, hv, hblk, hnblk]
  refine .next { h with
    phase := rfl
    hash := fun _ => rfl
    counters := fun _ => ⟨rfl, rfl⟩
    schedule := ?_
    words := ?_
    rounds := ?_
    vars := ?_ }
  all_goals
    dsimp only
    split_ifs <;> simp

/-- Both engines take the step of the same phase (R88), or fault alike in a reserved one (R89). -/
theorem State.HostSame.exec_decodeEngine (h : s.HostSame u) :
    OutcomesHostSame (exec (decodeEngine s.phase) s) (exec (decodeEngine s.phase) u) := by
  rcases phase_cases s.phase with ⟨p, hp⟩ | hp
  · rw [hp, decodeEngine_code]
    cases p with
    | idle => exact .next h
    | pad => exact h.execEsPad
    | load => exact h.execEsLoad hp
    | sched => exact h.execEsSched hp
    | cinit => exact h.execEsCinit hp
    | round => exact h.execEsRound hp
    | fold => exact h.execEsFold hp
    | done => exact .next h
    | error => exact .next h
  · rw [exec_decodeEngine_reserved hp, exec_decodeEngine_reserved hp]
    exact .fault _

/-! ## The step, and the statements -/

theorem State.HostSame.step (h : s.HostSame u) : OutcomesHostSame (step s) (step u) := by
  have hi := h.inputs
  obtain ⟨hs, hstep⟩ | ⟨es, hs, hstep⟩ | ⟨x, es, hs, hnext, hfault⟩ | ⟨es, hs, hstep⟩ := step_cases s
  · rw [hstep, step_of_nil (hi.trans hs), h.phase]
    exact h.exec_decodeEngine
  · rw [hstep, step_of_engine (hi.trans hs), h.phase]
    exact (h.withInputs es).exec_decodeEngine
  · by_cases hp : s.phase.toNat ≤ 8
    · rw [hnext hp, step_of_host (hi.trans hs) (by rwa [h.phase]), h.msgCap, h.busy_eq]
      exact (h.withInputs es).exec_decodeHost s.msgCap s.busy x
    · have hr : 9 ≤ s.phase.toNat := by omega
      rw [hfault hr, step_of_reservedPhase (by rwa [h.phase]) (by simp [hi.trans hs])]
      exact .fault _
  · rw [hstep, step_of_reset (hi.trans hs), (h.withInputs es).resetInput_eq]
    exact .next (.refl _)

/-- Settles O59: the relation is kept by every update a step makes (`State.HostSame.step`). -/
theorem hostSameIsKeptByEveryStep : Obligations.HostSameIsKeptByEveryStep :=
  fun _ _ h => ⟨fun _ => h.step.of_next, fun _ => h.step.of_fault⟩

/-- Settles O23: in each case of `step_host_cases` the update leaves the engine's registers and MSG_CAP as they were. -/
theorem hostNeverWritesTheEngineRegisters : Obligations.HostNeverWritesTheEngineRegisters := by
  intro s x es hp hi
  obtain ⟨t, ht, hcases⟩ := step_host_cases hi hp
  refine ⟨t, ht, ?_⟩
  rcases hcases with ⟨_, -, _, _, rfl⟩ | ⟨_, -, rfl, -⟩ | ⟨_, -, -, -, -, rfl⟩ | ⟨_, -, -, -, -, -, rfl⟩ |
    ⟨_, -, -, -, _, rfl⟩ | ⟨_, -, -, -, _, -, rfl⟩
  all_goals exact ⟨⟨rfl, rfl, rfl, rfl, rfl, rfl⟩, rfl, rfl⟩

end Sys2Proof.Machine
end

section
/-! PROOFS. What a host access does to the machine: the step runs what was decoded (O7), accesses without effect (O10, O12,
O15, O19), and reads (O20, O21, O22). -/

namespace Sys2Proof

/-- Outside the registers and the window an offset is misaligned or reserved (R58, R83). -/
theorem classify_misaligned_or_reserved {cap : Nat} {a : Word}
    (h : a.toNat % 4 ≠ 0 ∨ (0x10 ≤ a.toNat ∧ a.toNat ≤ 0x1C) ∨ (0x40 ≤ a.toNat ∧ a.toNat ≤ 0xFFC) ∨
      0x1000 + cap ≤ a.toNat) :
    (∃ low hi, classify cap a = .misaligned low hi) ∨ (∃ hi, classify cap a = .reserved hi) := by
  by_cases hm : a.toNat % 4 = 0
  · right
    rw [classify_above hm (by omega), if_neg (by omega), if_neg (by omega)]
    exact ⟨_, rfl⟩
  · exact .inl ⟨_, _, classify_misaligned hm⟩

/-- A write at a window offset decodes to the window write of that word (R83 case 7). -/
theorem decodeHost_write_windowOffset {cap : Nat} {k : BitVec 30} (hc : Config.legalMsgCap cap)
    (hk : Instr.windowWord cap k) (busy : Bool) (d : Word) :
    decodeHost cap busy (.write (TxWord.mk (windowOffset k) d)) = .wrMsgwin k d := by
  simp [decodeHost, decodeWrite, classify_windowOffset hc hk]

/-- A read at a window offset decodes to the window read of that word (R83 case 7). -/
theorem decodeHost_read_windowOffset {cap : Nat} {k : BitVec 30} (hc : Config.legalMsgCap cap)
    (hk : Instr.windowWord cap k) (busy : Bool) (d : Word) :
    decodeHost cap busy (.read (TxWord.mk (windowOffset k) d)) = .rdMsgwin k := by
  simp [decodeHost, decodeRead, classify_windowOffset hc hk]

end Sys2Proof

namespace Sys2Proof.Machine

/-! ## The step runs what was decoded -/

/-- Settles O7: one law of the step for each form of the next event. -/
theorem stepRunsTheDecodedInstruction : Obligations.StepRunsTheDecodedInstruction :=
  fun _ _ _ => ⟨step_of_nil, step_of_engine, step_of_host, step_of_reset⟩

/-! ## Accesses without effect -/

/-- Settles O12: the meaning of each of the six rows is `noEffect`. -/
theorem writesWithoutEffectComplete : Obligations.WritesWithoutEffectComplete :=
  fun _ _ _ _ => ⟨rfl, rfl, rfl, rfl, rfl, rfl⟩

/-- Settles O19: the meaning of each of the five rows is `readReturns 0`. -/
theorem readsOfZeroComplete : Obligations.ReadsOfZeroComplete :=
  fun _ _ => ⟨rfl, rfl, rfl, rfl, rfl⟩

/-- A misaligned or reserved write has no effect (R55, R215). -/
theorem exec_decodeWrite_noEffect {cap : Nat} {word : TxWord}
    (h : (∃ low hi, classify cap (TxWord.addr word) = .misaligned low hi) ∨
      (∃ hi, classify cap (TxWord.addr word) = .reserved hi)) (busy : Bool) (s : State) :
    exec (decodeWrite cap busy word) s = .next s := by
  unfold decodeWrite
  obtain ⟨low, hi, h⟩ | ⟨hi, h⟩ := h
  · rw [h]
    dsimp only
    split_ifs <;> rfl
  · rw [h]
    rfl

/-- A misaligned or reserved read returns 0 (R55, R215). -/
theorem exec_decodeRead_zero {cap : Nat} {word : TxWord}
    (h : (∃ low hi, classify cap (TxWord.addr word) = .misaligned low hi) ∨
      (∃ hi, classify cap (TxWord.addr word) = .reserved hi)) (s : State) :
    exec (decodeRead cap word) s = .next (readReturns 0 s) := by
  unfold decodeRead
  obtain ⟨low, hi, h⟩ | ⟨hi, h⟩ := h
  · rw [h]
    dsimp only
    split_ifs <;> rfl
  · rw [h]
    rfl

/-- Settles O10: these offsets decode to the misaligned and reserved rows alone. -/
theorem misalignedAndReservedAccessesDoNothing : Obligations.MisalignedAndReservedAccessesDoNothing := by
  intro s word es _ hp ha
  have ht := classify_misaligned_or_reserved ha
  exact ⟨fun hi => (step_of_host hi hp).trans (exec_decodeWrite_noEffect ht _ _),
    fun hi => (step_of_host hi hp).trans (exec_decodeRead_zero ht _)⟩

/-- While busy a host transaction is a read, which moves the read value and the draws alone, or a dropped write (R204, R207
to R209, R57). -/
theorem step_host_of_busy {s : State} {x : Transaction} {es : List Event} (hi : s.inputs = .host x :: es)
    (hb : s.busy = true) :
    (∃ word r n, x = .read word ∧ step s = .next (readReturns r ((s.withInputs es).drawn n))) ∨
    (∃ word, x = .write word ∧ step s = .next (s.withInputs es)) := by
  obtain ⟨t, ht, hcases⟩ := step_host_cases hi (phase_le_of_busy hb)
  rcases hcases with ⟨word, hx, r, n, rfl⟩ | ⟨word, hx, rfl, -⟩ | ⟨_, -, hn, -⟩ | ⟨_, -, hn, -⟩ | ⟨_, -, hn, -⟩ |
    ⟨_, -, hn, -⟩
  · exact .inl ⟨word, r, n, hx, ht⟩
  · exact .inr ⟨word, hx, ht⟩
  all_goals simp [hb] at hn

/-- Settles O15: every write that could land needs BUSY = 0. -/
theorem hostWritesWhileBusyAreDropped : Obligations.HostWritesWhileBusyAreDropped := by
  intro s word es hi hb
  obtain ⟨_, _, _, hx, -⟩ | ⟨_, -, ht⟩ := step_host_of_busy hi hb
  · cases hx
  · exact ht

/-! ## Reads -/

/-- Settles O22: a read of any offset changes the read value and the count of draws alone. -/
theorem hostReadsHaveNoSideEffects : Obligations.HostReadsHaveNoSideEffects := by
  intro s word es hp hi
  obtain ⟨r, n, h⟩ := exec_decodeRead_cases s.msgCap word (s.withInputs es)
  exact ⟨_, (step_of_host hi hp).trans h, ⟨rfl, rfl, rfl, rfl, rfl, rfl⟩, ⟨rfl, rfl, fun _ => rfl⟩, ⟨rfl, rfl⟩, rfl⟩

@[simp] theorem State.hostReadByte_mem (s : State) (j : Nat) : (s.hostReadByte j).2.mem = s.mem := by
  obtain ⟨n, h⟩ := s.hostReadByte_drawn j
  rw [h, State.drawn_mem]

theorem State.hostReadByte_fst_of_written {s : State} {j : Nat} {b : Byte} (h : s.mem.read j = some b) :
    (s.hostReadByte j).1 = b := by
  simp [State.hostReadByte, h]

/-- A window read holds each written byte in its lane, whatever was drawn for the others (R54, R214). -/
theorem State.byteOf_hostReadWord (s : State) (k : Nat) :
    (∀ b, s.mem.read (4 * k) = some b → byteOf 0 (s.hostReadWord k).1 = b) ∧
    (∀ b, s.mem.read (4 * k + 1) = some b → byteOf 1 (s.hostReadWord k).1 = b) ∧
    (∀ b, s.mem.read (4 * k + 2) = some b → byteOf 2 (s.hostReadWord k).1 = b) ∧
    (∀ b, s.mem.read (4 * k + 3) = some b → byteOf 3 (s.hostReadWord k).1 = b) := by
  have hw : (s.hostReadWord k).1 = be32 _ _ _ _ := rfl
  obtain ⟨e0, e1, e2, e3⟩ := byteOf_be32 _ _ _ _
  rw [hw, e0, e1, e2, e3]
  refine ⟨fun _ h => ?_, fun _ h => ?_, fun _ h => ?_, fun _ h => ?_⟩
  all_goals exact State.hostReadByte_fst_of_written (by simpa using h)

/-- A window read over four written bytes draws nothing. -/
theorem State.hostReadWord_draws_of_written {s : State} {k : Nat}
    (h : ∀ i, i < 4 → (s.mem.read (4 * k + i)).isSome = true) : (s.hostReadWord k).2.draws = s.draws := by
  obtain ⟨b0, h0⟩ := Option.isSome_iff_exists.mp (h 0 (by decide))
  obtain ⟨b1, h1⟩ := Option.isSome_iff_exists.mp (h 1 (by decide))
  obtain ⟨b2, h2⟩ := Option.isSome_iff_exists.mp (h 2 (by decide))
  obtain ⟨b3, h3⟩ := Option.isSome_iff_exists.mp (h 3 (by decide))
  rw [State.hostReadWord_written h0 h1 h2 h3]

/-- Settles O20: the lanes of the word read, and the draws as the only other change. -/
theorem windowReadsReturnTheWrittenBytes : Obligations.WindowReadsReturnTheWrittenBytes := by
  intro s k _
  obtain ⟨l0, l1, l2, l3⟩ := s.byteOf_hostReadWord k.toNat
  refine ⟨_, rfl, l0, l1, l2, l3, State.hostReadWord_draws_of_written, ?_⟩
  obtain ⟨n, hn⟩ := s.hostReadWord_drawn k.toNat
  rw [hn]
  exact ⟨⟨rfl, rfl, rfl, rfl, rfl, rfl⟩, ⟨rfl, rfl, fun _ => rfl⟩, ⟨rfl, rfl⟩, rfl⟩

/-- A window write while not busy, as a step (R209). -/
theorem step_windowWrite {s : State} {k : BitVec 30} {d : Word} {es : List Event}
    (hi : s.inputs = wr (windowOffset k) d :: es) (hc : Config.legalMsgCap s.msgCap) (hk : Instr.windowWord s.msgCap k)
    (hp : s.phase.toNat ≤ 8) (hb : s.busy = false) :
    step s = .next ((s.withInputs es).withMem (s.mem.writeWord k.toNat d)) := by
  rw [step_of_host hi hp, decodeHost_write_windowOffset hc hk]
  exact congrArg Host.Outcome.next (unlessBusy_of_not_busy _ hb)

/-- A window read as a step (R214). -/
theorem step_windowRead {s : State} {k : BitVec 30} {es : List Event} (hi : s.inputs = rd (windowOffset k) :: es)
    (hc : Config.legalMsgCap s.msgCap) (hk : Instr.windowWord s.msgCap k) (hp : s.phase.toNat ≤ 8) :
    step s = .next (readReturns ((s.withInputs es).hostReadWord k.toNat).1 ((s.withInputs es).hostReadWord k.toNat).2) := by
  rw [step_of_host hi hp, decodeHost_read_windowOffset hc hk]
  rfl

/-- A window word reads back from the memory it was written to (R54). -/
theorem State.hostReadWord_of_writeWord {s : State} {m : Memory} {k : Nat} {d : Word} (h : s.mem = m.writeWord k d) :
    s.hostReadWord k = (d, s) := by
  rw [State.hostReadWord_written (b0 := byteOf 0 d) (b1 := byteOf 1 d) (b2 := byteOf 2 d) (b3 := byteOf 3 d),
    be32_byteOf]
  all_goals simp [h, Memory.read_writeWord]

/-- Settles O21: the write lands, and the read takes the four bytes it left. -/
theorem windowWordsReadBack : Obligations.WindowWordsReadBack := by
  intro s k d es hc hk hp hb hi
  refine ⟨_, _, step_windowWrite hi hc hk hp hb, step_windowRead (k := k) rfl hc hk hp, ?_⟩
  rw [State.hostReadWord_of_writeWord rfl]
  exact ⟨rfl, rfl⟩

end Sys2Proof.Machine
end

section
/-! PROOFS. Where the engine stops (O28, O45), and what a step leaves of the message (O46, O47) and of the digest (O48). -/

namespace Sys2Proof.Machine

/-! ## LOAD over an unwritten byte -/

/-- PadByte has no value at an unwritten message byte (R56). -/
theorem State.padByte_of_unwritten {s : State} {j : Nat} (hj : j < s.msgLen.toNat) (hr : s.mem.read j = none) :
    s.padByte j = .error j := by
  rw [State.padByte, if_pos hj, State.msgRead, hr]

/-- Each of the `4 * n` bytes read has a value, when the words have. -/
theorem State.padByte_of_padWords {s : State} {j n i : Nat} {xs : List Word} (h : s.padWords j n = .ok xs)
    (h1 : j ≤ i) (h2 : i < j + 4 * n) : ∃ b, s.padByte i = .ok b := by
  obtain ⟨hl, hw⟩ := State.padWords_eq_ok.mp h
  obtain ⟨b0, b1, b2, b3, h0, h1', h2', h3', -⟩ := State.padWord_eq_ok.mp (hw ((i - j) / 4) (by omega))
  obtain hi | hi | hi | hi : i = j + 4 * ((i - j) / 4) ∨ i = j + 4 * ((i - j) / 4) + 1 ∨
    i = j + 4 * ((i - j) / 4) + 2 ∨ i = j + 4 * ((i - j) / 4) + 3 := by omega
  all_goals
    rw [hi]
    exact ⟨_, ‹_›⟩

/-- What LOAD answers below NBLK: SCHED over the block's words, or a fault that names an unwritten message byte of the block
(40_padder.md R117; R56). -/
theorem execEsLoad_cases {s : State} (hb : s.blk.toNat < s.nblk.toNat) :
    (∃ xs, s.padWords (64 * s.blk.toNat) 16 = .ok xs ∧
      execEsLoad s = .next { s with w := loadWords xs s.w, t := 16, phase := Phase.sched.code }) ∨
    (∃ e, execEsLoad s = .fault (.unwrittenRead e) ∧
      64 * s.blk.toNat ≤ e ∧ e < 64 * s.blk.toNat + 64 ∧ e < s.msgLen.toNat ∧ s.mem.read e = none) := by
  unfold execEsLoad
  rw [if_pos hb]
  cases h : s.padWords (64 * s.blk.toNat) 16 with
  | ok xs => exact .inl ⟨xs, rfl, rfl⟩
  | error e => exact .inr ⟨e, rfl, State.padWords_error h⟩

/-- Settles O28: had LOAD the words of the block, PadByte would have a value at the unwritten byte. -/
theorem loadStepFaultsOnAnUnwrittenByte : Obligations.LoadStepFaultsOnAnUnwrittenByte := by
  intro s j hb h1 h2 hj hr
  obtain ⟨xs, hxs, -⟩ | he := execEsLoad_cases hb
  · obtain ⟨b, hb⟩ := State.padByte_of_padWords hxs h1 h2
    rw [State.padByte_of_unwritten hj hr] at hb
    cases hb
  · exact he

/-! ## Where a state with the invariant stops -/

theorem State.Inv.withInputs {s : State} (h : s.Inv) (es : List Event) : (s.withInputs es).Inv :=
  ⟨h.capLegal, h.memWf, h.memInBuffer, h.phaseNamed, h.errRaised, h.errorPhase, h.blocks, h.schedT, h.roundT⟩

/-- Under the invariant the engine's step answers, but for LOAD over an unwritten message byte. -/
theorem State.Inv.exec_decodeEngine {s : State} (h : s.Inv) :
    (∃ t, exec (decodeEngine s.phase) s = .next t) ∨
    (∃ j, exec (decodeEngine s.phase) s = .fault (.unwrittenRead j) ∧ s.phase = 2 ∧ j < s.msgLen.toNat ∧
      s.mem.read j = none) := by
  rcases phase_cases s.phase with ⟨q, hq⟩ | hp
  · rw [hq, decodeEngine_code]
    cases q with
    | idle => exact .inl ⟨_, rfl⟩
    | pad =>
      left
      show ∃ t, execEsPad s = .next t
      unfold execEsPad
      split_ifs <;> exact ⟨_, rfl⟩
    | load =>
      obtain ⟨-, -, hb⟩ := h.blocks (.inl hq)
      obtain ⟨xs, -, hx⟩ | ⟨e, he, -, -, hlt, hr⟩ := execEsLoad_cases hb
      · exact .inl ⟨_, hx⟩
      · exact .inr ⟨e, he, rfl, hlt, hr⟩
    | sched => exact .inl ⟨_, dif_pos (h.schedT hq)⟩
    | cinit => exact .inl ⟨_, rfl⟩
    | round => exact .inl ⟨_, dif_pos (h.roundT hq)⟩
    | fold => exact .inl ⟨_, rfl⟩
    | done => exact .inl ⟨_, rfl⟩
    | error => exact .inl ⟨_, rfl⟩
  · exact absurd h.phaseNamed (by omega)

/-- The three kinds of next event: the engine's turn, a host transaction, the reset input (R60). -/
theorem State.nextEvent_cases (s : State) :
    s.engineNext ∨ (∃ x es, s.inputs = .host x :: es) ∨ (∃ es, s.inputs = .reset :: es) := by
  unfold State.engineNext
  rcases s.inputs with _ | ⟨_ | _ | _, es⟩
  · exact .inl (.inl rfl)
  · exact .inr (.inl ⟨_, es, rfl⟩)
  · exact .inl (.inr ⟨es, rfl⟩)
  · exact .inr (.inr ⟨es, rfl⟩)

/-- Settles O45: host transactions and the reset input always answer, and the engine's step stops in LOAD alone. -/
theorem onlyUnwrittenReadsStopTheMachine : Obligations.OnlyUnwrittenReadsStopTheMachine := by
  intro s h
  obtain he | ⟨x, es, hi⟩ | ⟨es, hi⟩ := s.nextEvent_cases
  · rw [step_of_engineNext he]
    exact (h.withInputs s.restInputs).exec_decodeEngine
  · obtain ⟨t, ht, -⟩ := step_host_cases hi h.phaseNamed
    exact .inl ⟨t, ht⟩
  · exact .inl ⟨_, step_of_reset hi⟩

/-! ## What a step leaves of the message -/

/-- No engine step writes MSG_LEN, MSG_CAP, MSGMEM or the host's side (R51; 40_padder.md R120). -/
theorem exec_decodeEngine_frame {s t : State} (h : exec (decodeEngine s.phase) s = .next t) :
    s.SameMessage t ∧ s.SameHostSide t := by
  rcases exec_decodeEngine_cases h with ⟨-, rfl⟩ | ⟨-, -, rfl⟩ | ⟨-, -, -, rfl⟩ | ⟨-, -, -, rfl⟩ |
    ⟨-, -, _, -, rfl⟩ | ⟨-, -, rfl⟩ | ⟨-, rfl⟩ | ⟨-, -, rfl⟩ | ⟨-, rfl⟩
  all_goals exact ⟨⟨rfl, rfl, fun _ => rfl⟩, rfl, rfl, rfl⟩

/-- Settles O47: the frame of the engine's step, with its turn consumed. -/
theorem engineNeverWritesTheMessage : Obligations.EngineNeverWritesTheMessage := by
  intro s t he ht
  rw [step_of_engineNext he] at ht
  obtain ⟨hm, hin, hrd, hdr⟩ := exec_decodeEngine_frame (s := s.withInputs s.restInputs) ht
  exact ⟨hm, hrd, hdr, hin⟩

/-- Settles O46: the engine never writes the message, and while busy the host cannot. -/
theorem inputsAreFrozenDuringAJob : Obligations.InputsAreFrozenDuringAJob := by
  intro s t hb hr ht
  obtain he | ⟨x, es, hi⟩ | ⟨es, hi⟩ := s.nextEvent_cases
  · exact (engineNeverWritesTheMessage s t he ht).1
  · obtain ⟨_, _, _, -, h⟩ | ⟨_, -, h⟩ := step_host_of_busy hi hb
    all_goals
      obtain rfl := Host.Outcome.next.inj (h.symm.trans ht)
      exact ⟨rfl, rfl, fun _ => rfl⟩
  · simp [hi] at hr

/-! ## The digest in DONE -/

/-- A DIGEST read depends on PHASE and H alone (43_digest.md R191; 44_host_interface.md R213). -/
theorem digestWord_congr {s t : State} (hp : t.phase = s.phase) (hh : t.h = s.h) (i : BitVec 3) :
    digestWord t i = digestWord s i := by
  simp only [digestWord, hp, hh]

/-- Settles O48: the engine has no step in DONE, and of the host's transactions only a CMD write moves PHASE or H. -/
theorem digestStaysUntilTheNextCommand : Obligations.DigestStaysUntilTheNextCommand := by
  intro s t hp ht hr hw
  suffices h : t.phase = s.phase ∧ t.h = s.h from ⟨h.1.trans hp, digestWord_congr h.1 h.2⟩
  obtain he | ⟨x, es, hi⟩ | ⟨es, hi⟩ := s.nextEvent_cases
  · rw [step_of_engineNext he, hp] at ht
    obtain rfl := Host.Outcome.next.inj ht
    exact ⟨rfl, rfl⟩
  · obtain ⟨t', ht', hcases⟩ := step_host_cases hi (by rw [hp]; decide)
    obtain rfl := Host.Outcome.next.inj (ht'.symm.trans ht)
    rcases hcases with ⟨_, -, _, _, rfl⟩ | ⟨_, -, rfl, -⟩ | ⟨word, rfl, -, ha, hd, -⟩ | ⟨word, rfl, -, ha, hd, -⟩ |
      ⟨_, -, -, -, _, rfl⟩ | ⟨_, -, -, -, _, -, rfl⟩
    case inr.inr.inl => simp [hw word (by rw [hi]; rfl) ha] at hd
    case inr.inr.inr.inl => exact absurd (hw word (by rw [hi]; rfl) ha) hd
    all_goals exact ⟨rfl, rfl⟩
  · simp [hi] at hr

end Sys2Proof.Machine
end

section
/-! PROOFS. The equations of SHA-256 in the shape in which the engine's steps use them: the padded message byte by byte, a
block as the words LOAD reads, the schedule word by word, the rounds one by one, and the digest as the host sees it. -/

namespace Sys2Proof.Machine

variable {msg : List Byte} {s : State}

/-! ## The padded message (40_padder.md R113) -/

/-- The message, the terminator and the length field fit in the blocks (R112). -/
theorem blockCount_bounds (len : Nat) :
    len + 9 ≤ 64 * blockCount len ∧ 1 ≤ blockCount len ∧ blockCount len ≤ len / 64 + 2 := by
  unfold blockCount
  omega

theorem refPad_message {j : Nat} (hj : j < msg.length) : (refPad msg).getD j 0 = msg[j] := by
  simp [refPad, List.getElem?_append_left, hj]

theorem refPad_terminator : (refPad msg).getD msg.length 0 = 0x80 := by
  simp [refPad]

theorem refPad_zeros {j : Nat} (h1 : msg.length < j) (h2 : j < 64 * blockCount msg.length - 8) :
    (refPad msg).getD j 0 = 0x00 := by
  obtain ⟨i, rfl⟩ : ∃ i, j = msg.length + (i + 1) := ⟨j - msg.length - 1, by omega⟩
  have hi : i < 64 * blockCount msg.length - msg.length - 9 := by omega
  rw [refPad, List.append_assoc, List.append_assoc, List.getD_append_right _ _ _ _ (by omega), Nat.add_sub_cancel_left]
  simp [List.getElem?_append_left, hi]

theorem refPad_lengthField {i : Nat} (hi : i < 8) :
    (refPad msg).getD (64 * blockCount msg.length - 8 + i) 0 = BitVec.ofNat 8 (8 * msg.length / 256 ^ (7 - i)) := by
  obtain ⟨hb, -, -⟩ := blockCount_bounds msg.length
  have hj : 64 * blockCount msg.length - 8 + i =
      (msg ++ [0x80] ++ List.replicate (64 * blockCount msg.length - msg.length - 9) (0x00 : Byte)).length + i := by
    simp
    omega
  rw [hj, refPad, List.getD_append_right _ _ _ _ (by omega), Nat.add_sub_cancel_left]
  simp [refLengthField, hi]

/-- With the message written, PadByte gives the bytes of the padded message (R113). -/
theorem State.padByte_eq_refPad (hm : s.HoldsMessage msg) (hn : s.nblk.toNat = blockCount msg.length) {j : Nat}
    (hj : j < 64 * blockCount msg.length) : s.padByte j = .ok ((refPad msg).getD j 0) := by
  obtain ⟨hb, -, -⟩ := blockCount_bounds msg.length
  unfold State.padByte State.paddedLen
  rw [hm.length, hn]
  split_ifs with h1 h2 h3
  · rw [State.msgRead, hm.bytes j h1, refPad_message h1]
  · rw [h2, refPad_terminator]
  · rw [refPad_zeros (by omega) h3]
  · obtain ⟨i, hi, rfl⟩ : ∃ i, i < 8 ∧ j = 64 * blockCount msg.length - 8 + i :=
      ⟨j - (64 * blockCount msg.length - 8), by omega⟩
    have he : 8 * (64 * blockCount msg.length - 1 - (64 * blockCount msg.length - 8 + i)) = 8 * (7 - i) := by omega
    rw [refPad_lengthField hi, he, Nat.shiftRight_eq_div_pow, Nat.pow_mul]

/-- With the message written, LOAD reads the words of the block (R117). -/
theorem State.padWords_eq_refBlock (hm : s.HoldsMessage msg) (hn : s.nblk.toNat = blockCount msg.length)
    (hb : s.blk.toNat < s.nblk.toNat) :
    s.padWords (64 * s.blk.toNat) 16 = .ok (refBlock (refPad msg) s.blk.toNat) := by
  refine State.padWords_eq_ok.mpr ⟨by simp [refBlock], fun i hi => ?_⟩
  have hi : i < 16 := by simpa [refBlock] using hi
  refine State.padWord_eq_ok.mpr ⟨_, _, _, _, State.padByte_eq_refPad hm hn ?_, State.padByte_eq_refPad hm hn ?_,
    State.padByte_eq_refPad hm hn ?_, State.padByte_eq_refPad hm hn ?_, by simp [refBlock]⟩
  all_goals omega

/-! ## The schedule (41_scheduler.md R145) -/

/-- Extending a schedule keeps the words it has. -/
theorem getElem?_refExtend_of_lt {n i : Nat} {ws : List Word} (hi : i < ws.length) : (refExtend n ws)[i]? = ws[i]? := by
  induction n generalizing ws with
  | zero => rfl
  | succ n ih =>
    rw [refExtend, ih (by simp; omega), List.getElem?_append_left hi]

/-- Each word added is the recurrence over the words 2, 7, 15 and 16 places back. -/
theorem getElem?_refExtend_of_ge {n i : Nat} {ws : List Word} (hl : 16 ≤ ws.length) (h1 : ws.length ≤ i)
    (h2 : i < ws.length + n) :
    (refExtend n ws)[i]? = some (scheduleWord ((refExtend n ws).getD (i - 2) 0) ((refExtend n ws).getD (i - 7) 0)
      ((refExtend n ws).getD (i - 15) 0) ((refExtend n ws).getD (i - 16) 0)) := by
  induction n generalizing ws with
  | zero => omega
  | succ n ih =>
    rw [refExtend]
    rcases Nat.eq_or_lt_of_le h1 with rfl | h
    · have hkept (x : Word) (j : Nat) (hj : j < ws.length) : (refExtend n (ws ++ [x])).getD j 0 = ws.getD j 0 := by
        rw [List.getD_eq_getElem?_getD, getElem?_refExtend_of_lt (by simp; omega), List.getElem?_append_left hj,
          List.getD_eq_getElem?_getD]
      rw [hkept _ _ (by omega), hkept _ _ (by omega), hkept _ _ (by omega), hkept _ _ (by omega),
        getElem?_refExtend_of_lt (by simp), List.getElem?_concat_length]
      rfl
    · exact ih (by simp; omega) (by simp; omega) (by simp; omega)

theorem length_refBlock (padded : List Byte) (b : Nat) : (refBlock padded b).length = 16 := by
  simp [refBlock]

/-! ## Rounds and folds (42_compressor.md R160) -/

theorem getElem?_kList {n : Nat} (hn : n < 64) : kList[n]? = some kRom[n] :=
  List.getElem?_eq_getElem hn

/-- One more round. -/
theorem refRounds_succ {n : Nat} (hn : n < 64) {ws : List Word} {w : Word} (hw : ws[n]? = some w) (x : HashVars) :
    refRounds (n + 1) x ws = refRound (refRounds n x ws) (kRom[n], w) := by
  have hz : (kList.zip ws)[n]? = some (kRom[n], w) := List.getElem?_zip_eq_some.mpr ⟨getElem?_kList hn, hw⟩
  simp [refRounds, List.take_add_one, hz]

@[simp] theorem toVars_roundVars (v : Vector Word 8) (k w : Word) :
    toVars (roundVars v k w) = refRound (toVars v) (k, w) := rfl

@[simp] theorem toVars_foldVars (h v : Vector Word 8) : toVars (foldVars h v) = refAdd (toVars h) (toVars v) := by
  simp [toVars, refAdd, getElem_foldVars]

/-! ## The digest (43_digest.md R191, R192) -/

/-- In DONE with the hash in H, the host sees the digest. -/
theorem State.Hashed.digestBytes_eq (h : s.Hashed msg) : digestBytes s = refDigest msg := by
  have hw : ∀ i, digestWord s i = s.h[i.toNat]'i.isLt := fun i => if_pos h.phase
  unfold digestBytes refDigest
  rw [← h.hash]
  unfold digestByte
  simp only [hw]
  rfl

end Sys2Proof.Machine
end

section
/-! PROOFS. A job over a written message ends in its digest, whatever the interleaving (O56). Each engine step carries the
values of SHA-256's equations on and takes one from the steps left; a host transaction takes none and leaves the job as it is. -/

namespace Sys2Proof.Machine

variable {msg : List Byte} {s t : State}

theorem stepsLeft_of_pad (h : s.phase = Phase.pad.code) : s.stepsLeft = jobSteps s.msgLen.toNat := by
  simp [State.stepsLeft, h]

theorem stepsLeft_of_load (h : s.phase = Phase.load.code) :
    s.stepsLeft = 115 + 115 * (s.nblk.toNat - s.blk.toNat - 1) := by
  simp [State.stepsLeft, h]

theorem stepsLeft_of_done (h : s.phase = Phase.done.code) : s.stepsLeft = 0 := by
  simp [State.stepsLeft, h]

theorem State.HoldsMessage.of_sameMessage (h : s.HoldsMessage msg) (ht : s.SameMessage t) : t.HoldsMessage msg := by
  obtain ⟨hl, hc, hm⟩ := ht
  exact ⟨by rw [hl, h.length], by rw [hc]; exact h.fits, fun j hj => by rw [hm, h.bytes j hj]⟩

/-! ## A job at a block -/

/-- A job past PAD is at block BLK of the padded message, with the hash state of the blocks before it in H (R173). -/
structure State.AtBlock (msg : List Byte) (s : State) : Prop where
  message : s.HoldsMessage msg
  count : s.nblk.toNat = blockCount msg.length
  inRange : s.blk.toNat < s.nblk.toNat
  hash : toVars s.h = refHash (refPad msg) s.blk.toNat

/-- From LOAD to ROUND a step leaves the message, BLK, NBLK and H. -/
structure State.SameBlock (s t : State) : Prop where
  message : s.SameMessage t
  blk : t.blk = s.blk
  nblk : t.nblk = s.nblk
  h : t.h = s.h

theorem State.AtBlock.of_sameBlock (h : s.AtBlock msg) (hk : s.SameBlock t) : t.AtBlock msg where
  message := h.message.of_sameMessage hk.message
  count := by rw [hk.nblk, h.count]
  inRange := by rw [hk.blk, hk.nblk]; exact h.inRange
  hash := by rw [hk.h, hk.blk, h.hash]

theorem State.AtBlock.hashing_load (h : s.AtBlock msg) (hp : s.phase = Phase.load.code) : s.Hashing msg :=
  ⟨h.message, .inr ⟨h.count, h.inRange, h.hash, .inl hp⟩⟩

theorem State.AtBlock.hashing_sched (h : s.AtBlock msg) (hp : s.phase = Phase.sched.code) (h1 : 16 ≤ s.t.toNat)
    (h2 : s.t.toNat < 64) (hw : s.scheduled msg s.blk.toNat s.t.toNat) : s.Hashing msg :=
  ⟨h.message, .inr ⟨h.count, h.inRange, h.hash, .inr (.inl ⟨hp, h1, h2, hw⟩)⟩⟩

theorem State.AtBlock.hashing_cinit (h : s.AtBlock msg) (hp : s.phase = Phase.cinit.code)
    (hw : s.scheduled msg s.blk.toNat 64) : s.Hashing msg :=
  ⟨h.message, .inr ⟨h.count, h.inRange, h.hash, .inr (.inr (.inl ⟨hp, hw⟩))⟩⟩

theorem State.AtBlock.hashing_round (h : s.AtBlock msg) (hp : s.phase = Phase.round.code) (ht : s.t.toNat < 64)
    (hw : s.scheduled msg s.blk.toNat 64) (hr : s.rounded msg s.blk.toNat s.t.toNat) : s.Hashing msg :=
  ⟨h.message, .inr ⟨h.count, h.inRange, h.hash, .inr (.inr (.inr (.inl ⟨hp, ht, hw, hr⟩)))⟩⟩

theorem State.AtBlock.hashing_fold (h : s.AtBlock msg) (hp : s.phase = Phase.fold.code)
    (hr : s.rounded msg s.blk.toNat 64) : s.Hashing msg :=
  ⟨h.message, .inr ⟨h.count, h.inRange, h.hash, .inr (.inr (.inr (.inr ⟨hp, hr⟩)))⟩⟩

/-! ## What each engine step does to the job -/

/-- The job goes on, or has ended with its hash, and one step fewer is left. -/
structure State.AdvancesTo (msg : List Byte) (s t : State) : Prop where
  job : t.Hashing msg ∨ t.Hashed msg
  count : t.stepsLeft + 1 = s.stepsLeft

/-- PAD: the length passes both tests, and block 0 begins with IV in H (R110). -/
theorem State.HoldsMessage.execEsPad (h : s.HoldsMessage msg) (hc : Config.legalMsgCap s.msgCap)
    (hp : s.phase = Phase.pad.code) : ∃ t, execEsPad s = .next t ∧ s.AdvancesTo msg t := by
  obtain ⟨-, -, hcap⟩ := hc
  have hfits := h.fits
  obtain ⟨-, hpos, hle⟩ := blockCount_bounds msg.length
  have hn : (beginBlocks s).nblk.toNat = blockCount msg.length := by
    rw [beginBlocks_nblk, h.length, BitVec.toNat_ofNat]
    exact Nat.mod_eq_of_lt (by omega)
  have hb : (beginBlocks s).blk.toNat = 0 := rfl
  have hat : (beginBlocks s).AtBlock msg :=
    ⟨h.of_sameMessage ⟨rfl, rfl, fun _ => rfl⟩, hn, by omega, rfl⟩
  refine ⟨beginBlocks s, ?_, .inl (hat.hashing_load rfl), ?_⟩
  · rw [Machine.execEsPad, h.length, if_neg (by omega), if_neg (by omega)]
  · rw [stepsLeft_of_load rfl, stepsLeft_of_pad hp, h.length, hn, hb, jobSteps]
    omega

theorem State.AtBlock.execEsLoad (h : s.AtBlock msg) : execEsLoad s =
    .next { s with w := loadWords (refBlock (refPad msg) s.blk.toNat) s.w, t := 16, phase := Phase.sched.code } := by
  rw [Machine.execEsLoad, if_pos h.inRange, State.padWords_eq_refBlock h.message h.count h.inRange]

/-- LOAD: the words of the block are the first 16 of its schedule (R117). -/
theorem State.AtBlock.advances_load (h : s.AtBlock msg) (hp : s.phase = Phase.load.code) (hk : s.SameBlock t)
    (hw : t.w = loadWords (refBlock (refPad msg) s.blk.toNat) s.w) (ht : t.t.toNat = 16)
    (htp : t.phase = Phase.sched.code) : s.AdvancesTo msg t where
  job := by
    refine .inl ((h.of_sameBlock hk).hashing_sched htp (by omega) (by omega) ?_)
    intro i hi hlt
    rw [ht] at hlt
    have hl : i < (refBlock (refPad msg) s.blk.toNat).length := by rwa [length_refBlock]
    simp only [hw, hk.blk, getElem_loadWords, refSchedule, getElem?_refExtend_of_lt hl]
    simp [hl]
  count := by
    rw [stepsLeft_of_sched htp, stepsLeft_of_load hp, ht, hk.blk, hk.nblk]
    omega

/-- Word T of the schedule is the recurrence over words before it (41_scheduler.md R146). -/
theorem scheduled_succ {b : Nat} (hs : s.scheduled msg b s.t.toNat) (ht : 16 ≤ s.t.toNat ∧ s.t.toNat < 64)
    (hw : t.w = s.w.set s.t.toNat (nextScheduleWord s.w s.t.toNat ht) ht.2) : t.scheduled msg b (s.t.toNat + 1) := by
  have hold (j : Nat) (hj : j < 64) (hjt : j < s.t.toNat) :
      (refExtend 48 (refBlock (refPad msg) b)).getD j 0 = s.w[j] := by
    have hw : some s.w[j] = (refExtend 48 (refBlock (refPad msg) b))[j]? := hs j hj hjt
    rw [List.getD_eq_getElem?_getD, ← hw, Option.getD_some]
  have hl := length_refBlock (refPad msg) b
  intro i hi hlt
  simp only [hw, Vector.getElem_set]
  split_ifs with he
  · rw [← he, refSchedule, getElem?_refExtend_of_ge (by omega) (by omega) (by omega), hold _ (by omega) (by omega),
      hold _ (by omega) (by omega), hold _ (by omega) (by omega), hold _ (by omega) (by omega)]
    rfl
  · exact hs i hi (by omega)

/-- SCHED: one more word of the schedule, and CINIT after the last (R146). -/
theorem State.AtBlock.advances_sched (h : s.AtBlock msg) (hp : s.phase = Phase.sched.code) (hk : s.SameBlock t)
    (hs : s.scheduled msg s.blk.toNat s.t.toNat) (hr : 16 ≤ s.t.toNat ∧ s.t.toNat < 64)
    (hw : t.w = s.w.set s.t.toNat (nextScheduleWord s.w s.t.toNat hr) hr.2) (ht : t.t.toNat = s.t.toNat + 1)
    (htp : t.phase = if s.t.toNat + 1 = 64 then Phase.cinit.code else Phase.sched.code) : s.AdvancesTo msg t := by
  have hat := h.of_sameBlock hk
  have hs' := scheduled_succ hs hr hw
  rw [← hk.blk] at hs'
  have hleft := stepsLeft_of_sched hp
  rw [← hk.blk, ← hk.nblk] at hleft
  split_ifs at htp with h64
  · rw [h64] at hs'
    exact ⟨.inl (hat.hashing_cinit htp hs'), by rw [stepsLeft_of_cinit htp]; omega⟩
  · rw [← ht] at hs'
    exact ⟨.inl (hat.hashing_sched htp (by omega) (by omega) hs'), by rw [stepsLeft_of_sched htp]; omega⟩

/-- CINIT: no round is done yet (42_compressor.md R170). -/
theorem State.AtBlock.advances_cinit (h : s.AtBlock msg) (hp : s.phase = Phase.cinit.code) (hk : s.SameBlock t)
    (hs : s.scheduled msg s.blk.toNat 64) (hw : t.w = s.w) (hv : t.v = s.h) (ht : t.t.toNat = 0)
    (htp : t.phase = Phase.round.code) : s.AdvancesTo msg t where
  job := by
    refine .inl ((h.of_sameBlock hk).hashing_round htp (by omega) ?_ ?_)
    · intro i hi hlt
      simp only [hw, hk.blk]
      exact hs i hi hlt
    · rw [ht, State.rounded, hv, hk.blk, h.hash]
      rfl
  count := by
    rw [stepsLeft_of_round htp, stepsLeft_of_cinit hp, ht, hk.blk, hk.nblk]
    omega

/-- ROUND: one more round, and FOLD after the last (R171). -/
theorem State.AtBlock.advances_round (h : s.AtBlock msg) (hp : s.phase = Phase.round.code) (hk : s.SameBlock t)
    (hs : s.scheduled msg s.blk.toNat 64) (hv : s.rounded msg s.blk.toNat s.t.toNat) (hr : s.t.toNat < 64)
    (hw : t.w = s.w) (htv : t.v = roundVars s.v kRom[s.t.toNat] s.w[s.t.toNat]) (ht : t.t.toNat = s.t.toNat + 1)
    (htp : t.phase = if s.t.toNat + 1 = 64 then Phase.fold.code else Phase.round.code) : s.AdvancesTo msg t := by
  have hat := h.of_sameBlock hk
  have hv' : t.rounded msg t.blk.toNat (s.t.toNat + 1) := by
    rw [State.rounded, htv, toVars_roundVars, hv, hk.blk, refRounds_succ hr (hs _ hr hr).symm]
  have hs' : t.scheduled msg t.blk.toNat 64 := by
    intro i hi hlt
    simp only [hw, hk.blk]
    exact hs i hi hlt
  have hleft := stepsLeft_of_round hp
  rw [← hk.blk, ← hk.nblk] at hleft
  split_ifs at htp with h64
  · rw [h64] at hv'
    exact ⟨.inl (hat.hashing_fold htp hv'), by rw [stepsLeft_of_fold htp]; omega⟩
  · rw [← ht] at hv'
    exact ⟨.inl (hat.hashing_round htp (by omega) hs' hv'), by rw [stepsLeft_of_round htp]; omega⟩

/-- FOLD: the hash state after this block, and DONE with SHA-256's hash after the last (R172, R173). -/
theorem State.AtBlock.advances_fold (h : s.AtBlock msg) (hp : s.phase = Phase.fold.code) (hm : s.SameMessage t)
    (hv : s.rounded msg s.blk.toNat 64) (hh : t.h = foldVars s.h s.v) (hb : t.blk = s.blk + 1) (hn : t.nblk = s.nblk)
    (htp : t.phase = if s.blk.toNat + 1 = s.nblk.toNat then Phase.done.code else Phase.load.code) :
    s.AdvancesTo msg t := by
  have hlt := h.inRange
  have hb' : t.blk.toNat = s.blk.toNat + 1 := by
    have hone : (1 : BitVec 64).toNat = 1 := rfl
    have := s.nblk.isLt
    rw [hb, BitVec.toNat_add]
    omega
  have hh' : toVars t.h = refHash (refPad msg) (s.blk.toNat + 1) := by
    rw [hh, toVars_foldVars, h.hash, hv]
    rfl
  have hleft := stepsLeft_of_fold hp
  split_ifs at htp with hlast
  · rw [hlast, h.count] at hh'
    exact ⟨.inr ⟨htp, hh'⟩, by rw [stepsLeft_of_done htp]; omega⟩
  · rw [← hb'] at hh'
    have hat : t.AtBlock msg := ⟨h.message.of_sameMessage hm, by rw [hn, h.count], by rw [hn]; omega, hh'⟩
    exact ⟨.inl (hat.hashing_load htp), by rw [stepsLeft_of_load htp, hb', hn]; omega⟩

/-- Every engine step of a job answers, and advances it. -/
theorem State.Hashing.exec_decodeEngine (h : s.Hashing msg) (hc : Config.legalMsgCap s.msgCap) :
    ∃ t, exec (decodeEngine s.phase) s = .next t ∧ s.AdvancesTo msg t := by
  obtain ⟨hm, hp | ⟨hn, hb, hh, hblock⟩⟩ := h
  · rw [hp, decodeEngine_code]
    exact hm.execEsPad hc hp
  have hat : s.AtBlock msg := ⟨hm, hn, hb, hh⟩
  obtain hp | ⟨hp, h1, h2, hs⟩ | ⟨hp, hs⟩ | ⟨hp, h1, hs, hv⟩ | ⟨hp, hv⟩ := hblock
  all_goals rw [hp, decodeEngine_code]
  · exact ⟨_, hat.execEsLoad, hat.advances_load hp ⟨⟨rfl, rfl, fun _ => rfl⟩, rfl, rfl, rfl⟩ rfl rfl rfl⟩
  · refine ⟨_, dif_pos ⟨h1, h2⟩, ?_⟩
    exact hat.advances_sched hp ⟨⟨rfl, rfl, fun _ => rfl⟩, rfl, rfl, rfl⟩ hs ⟨h1, h2⟩ rfl
      (toNat_countStep_t .sched .cinit h2) rfl
  · exact ⟨_, rfl, hat.advances_cinit hp ⟨⟨rfl, rfl, fun _ => rfl⟩, rfl, rfl, rfl⟩ hs rfl rfl rfl rfl⟩
  · refine ⟨_, dif_pos h1, ?_⟩
    exact hat.advances_round hp ⟨⟨rfl, rfl, fun _ => rfl⟩, rfl, rfl, rfl⟩ hs hv h1 rfl rfl
      (toNat_countStep_t .round .fold h1) rfl
  · exact ⟨_, rfl, hat.advances_fold hp ⟨rfl, rfl, fun _ => rfl⟩ hv rfl rfl rfl rfl⟩

/-! ## A job under the events of an interleaving -/

theorem State.Hashing.busy (h : s.Hashing msg) : s.busy = true := by
  obtain ⟨-, hp | ⟨-, -, -, hp | ⟨hp, -⟩ | ⟨hp, -⟩ | ⟨hp, -⟩ | ⟨hp, -⟩⟩⟩ := h
  all_goals rw [State.busy, hp]; rfl

/-- A job does not depend on the host's side of the state. -/
theorem State.Hashing.withHostSide (h : s.Hashing msg) (es : List Event) (r : Word) (n : Nat) :
    (readReturns r ((s.withInputs es).drawn n)).Hashing msg :=
  ⟨⟨h.message.length, h.message.fits, h.message.bytes⟩, h.progress⟩

theorem State.Hashing.withInputs (h : s.Hashing msg) (es : List Event) : (s.withInputs es).Hashing msg :=
  ⟨⟨h.message.length, h.message.fits, h.message.bytes⟩, h.progress⟩

/-- The engine's turn advances the job (43_digest.md R194). -/
theorem State.Hashing.step_of_engineNext (h : s.Hashing msg) (hc : Config.legalMsgCap s.msgCap) (he : s.engineNext) :
    ∃ t, step s = .next t ∧ t.msgCap = s.msgCap ∧ t.inputs = s.restInputs ∧ s.AdvancesTo msg t := by
  obtain ⟨t, ht, hadv⟩ := (h.withInputs s.restInputs).exec_decodeEngine hc
  obtain ⟨⟨-, hcap, -⟩, hin, -⟩ := exec_decodeEngine_frame ht
  exact ⟨t, (Machine.step_of_engineNext he).trans ht, hcap, hin, hadv.job, hadv.count⟩

/-- A host transaction leaves the job as it is, because the core is busy (42_compressor.md R174). -/
theorem State.Hashing.step_of_host (h : s.Hashing msg) {x : Transaction} {es : List Event} (hi : s.inputs = .host x :: es) :
    ∃ t, step s = .next t ∧ t.msgCap = s.msgCap ∧ t.inputs = es ∧ t.Hashing msg ∧ t.stepsLeft = s.stepsLeft := by
  obtain ⟨_, r, n, -, ht⟩ | ⟨_, -, ht⟩ := step_host_of_busy hi h.busy
  · exact ⟨_, ht, rfl, rfl, h.withHostSide es r n, rfl⟩
  · exact ⟨_, ht, rfl, rfl, h.withInputs es, rfl⟩

/-- Whatever the next event but reset, the job ends with its hash, or goes on with less to come: fewer events or fewer
engine steps. -/
theorem State.Hashing.step_of_not_reset (h : s.Hashing msg) (hc : Config.legalMsgCap s.msgCap)
    (hr : Event.reset ∉ s.inputs) :
    ∃ t, step s = .next t ∧ t.msgCap = s.msgCap ∧ t.inputs = s.restInputs ∧ (t.Hashing msg ∨ t.Hashed msg) ∧
      t.inputs.length + t.stepsLeft < s.inputs.length + s.stepsLeft := by
  obtain he | ⟨x, es, hi⟩ | ⟨es, hi⟩ := s.nextEvent_cases
  · obtain ⟨t, ht, hcap, hin, hjob, hcount⟩ := h.step_of_engineNext hc he
    refine ⟨t, ht, hcap, hin, hjob, ?_⟩
    rw [hin, State.restInputs, List.length_tail]
    omega
  · obtain ⟨t, ht, hcap, hin, hjob, hcount⟩ := h.step_of_host hi
    refine ⟨t, ht, hcap, by rw [hin, State.restInputs, hi, List.tail_cons], .inl hjob, ?_⟩
    rw [hin, hi, hcount, List.length_cons]
    omega
  · simp [hi] at hr

/-- A run of a job without reset ends with its hash, by induction on the events and engine steps to come. -/
theorem State.Hashing.run_to_hashed (h : s.Hashing msg) (hc : Config.legalMsgCap s.msgCap) (hr : Event.reset ∉ s.inputs) :
    ∃ n t, n ≤ s.inputs.length + s.stepsLeft ∧ runSteps n s = .next t ∧ t.Hashed msg ∧
      ∀ m, m < n → ∃ u, runSteps m s = .next u ∧ u.busy = true := by
  induction hk : s.inputs.length + s.stepsLeft using Nat.strong_induction_on generalizing s with
  | _ k ih =>
    obtain ⟨t, ht, hcap, hin, hjob | hdone, hlt⟩ := h.step_of_not_reset hc hr
    · have hr' : Event.reset ∉ t.inputs := by
        rw [hin]
        exact fun hmem => hr (List.mem_of_mem_tail hmem)
      obtain ⟨n, u, hn, hu, hend, hbusy⟩ := ih _ (hk ▸ hlt) hjob (by rwa [hcap]) hr' rfl
      refine ⟨n + 1, u, by omega, (runSteps_succ_next ht).trans hu, hend, fun m hm => ?_⟩
      cases m with
      | zero => exact ⟨s, rfl, h.busy⟩
      | succ m =>
        obtain ⟨v, hv, hvb⟩ := hbusy m (by omega)
        exact ⟨v, (runSteps_succ_next ht).trans hv, hvb⟩
    · refine ⟨1, t, by omega, runSteps_succ_next ht, hdone, fun m hm => ?_⟩
      obtain rfl : m = 0 := by omega
      exact ⟨s, rfl, h.busy⟩

/-- Settles O56: PAD with the message written is a job, and its run ends with the hash, which DONE shows as the digest. -/
theorem jobEndsInTheDigestInEveryInterleaving : Obligations.JobEndsInTheDigestInEveryInterleaving := by
  intro msg s hc hm hp hr
  obtain ⟨n, t, hn, ht, hend, hbusy⟩ := State.Hashing.run_to_hashed ⟨hm, .inl hp⟩ hc hr
  rw [stepsLeft_of_pad hp, hm.length] at hn
  exact ⟨n, t, hn, ht, hend.phase, hend.digestBytes_eq, hbusy⟩

end Sys2Proof.Machine
end

section
/-! PROOFS. The encodings (30_encoding.md): the decoder and the encoder undo each other (O1, O2), what the decoder gives
(O3), the decode order of an offset (O4), the phase codes (O5, O34) and ten words written out (O6). -/

namespace Sys2Proof

/-! ## The row of a target -/

/-- The row a write with data `d` is, by the target of its offset (R80, R83, R85). -/
def Target.writeRow (busy : Bool) (d : Word) : Target → Instr
  | .misaligned low a =>
    if low = 1 then .wrMisaligned01 a d else if low = 2 then .wrMisaligned10 a d else .wrMisaligned11 a d
  | .cmd => decodeCommand busy d
  | .status => .wrStatus d
  | .msgLenLo => .wrMsgLenLo d
  | .msgLenHi => .wrMsgLenHi d
  | .digest i => .wrDigest i d
  | .msgwin k => .wrMsgwin k d
  | .reserved a => .wrReserved a d

/-- The row a read is, by the target of its offset (R80, R83). -/
def Target.readRow : Target → Instr
  | .misaligned low a =>
    if low = 1 then .rdMisaligned01 a else if low = 2 then .rdMisaligned10 a else .rdMisaligned11 a
  | .cmd => .rdCmd
  | .status => .rdStatus
  | .msgLenLo => .rdMsgLenLo
  | .msgLenHi => .rdMsgLenHi
  | .digest i => .rdDigest i
  | .msgwin k => .rdMsgwin k
  | .reserved a => .rdReserved a

theorem decodeWrite_eq_writeRow (cap : Nat) (busy : Bool) (word : TxWord) :
    decodeWrite cap busy word = (classify cap (TxWord.addr word)).writeRow busy (TxWord.data word) := rfl

theorem decodeRead_eq_readRow (cap : Nat) (word : TxWord) :
    decodeRead cap word = (classify cap (TxWord.addr word)).readRow := rfl

end Sys2Proof

namespace Sys2Proof.Machine

variable {cap : Nat}

/-! ## An encoded instruction decodes to itself -/

/-- STATUS is the offset 4 (R83 case 3). -/
theorem classify_status (cap : Nat) : classify cap 4 = .status := rfl

theorem decode_encodeWrite {a : Word} {t : Target} (h : classify cap a = t) (busy : Bool) (d : Word) :
    decode cap busy (encodeWrite a d) = t.writeRow busy d := by
  have hd : decode cap busy (encodeWrite a d) = decodeWrite cap busy (TxWord.mk a d) := rfl
  rw [hd, decodeWrite_eq_writeRow, TxWord.addr_mk, TxWord.data_mk, h]

theorem decode_encodeRead {a : Word} {t : Target} (h : classify cap a = t) (busy : Bool) :
    decode cap busy (encodeRead a) = t.readRow := by
  have hd : decode cap busy (encodeRead a) = decodeRead cap (TxWord.mk a 0) := rfl
  rw [hd, decodeRead_eq_readRow, TxWord.addr_mk, h]

/-- A write of offset 0 is a command (R83 case 2, R85). -/
theorem decode_encodeWrite_cmd (cap : Nat) (busy : Bool) (d : Word) :
    decode cap busy (encodeWrite 0 d) = decodeCommand busy d :=
  decode_encodeWrite (classify_eq_cmd.mpr rfl) busy d

/-- A command other than NOP and START is illegal (R205). -/
theorem decodeCommand_illegal {d : Word} (h0 : d ≠ 0) (h1 : d ≠ 1) : decodeCommand false d = .cmdIllegal d :=
  (if_neg h0).trans (if_neg h1)

/-- Settles O1, row by row: the offset that the encoder writes is classified as the row's target, with the row's operand. -/
theorem decodeOfEncodeIsTheInstruction : Obligations.DecodeOfEncodeIsTheInstruction := by
  intro cap busy i hc hw hb
  cases i with
  | wrMisaligned01 a d | wrMisaligned10 a d | wrMisaligned11 a d =>
    exact decode_encodeWrite (classify_offsetOf cap a (by decide)) busy d
  | rdMisaligned01 a | rdMisaligned10 a | rdMisaligned11 a =>
    exact decode_encodeRead (classify_offsetOf cap a (by decide)) busy
  | nop =>
    obtain rfl := (Bool.not_eq_true' busy).mp hb
    exact decode_encodeWrite_cmd cap false 0
  | start =>
    obtain rfl := (Bool.not_eq_true' busy).mp hb
    exact decode_encodeWrite_cmd cap false 1
  | cmdIllegal d =>
    obtain rfl := (Bool.not_eq_true' busy).mp hb
    obtain ⟨h0, h1⟩ : d ≠ 0 ∧ d ≠ 1 := of_decide_eq_true hw
    exact (decode_encodeWrite_cmd cap false d).trans (decodeCommand_illegal h0 h1)
  | cmdBusy d =>
    obtain rfl : busy = true := hb
    exact decode_encodeWrite_cmd cap true d
  | rdCmd => exact decode_encodeRead (classify_eq_cmd.mpr rfl) busy
  | wrStatus d => exact decode_encodeWrite (classify_status cap) busy d
  | rdStatus => exact decode_encodeRead (classify_status cap) busy
  | wrMsgLenLo d => exact decode_encodeWrite (classify_eq_msgLenLo.mpr rfl) busy d
  | wrMsgLenHi d => exact decode_encodeWrite (classify_eq_msgLenHi.mpr rfl) busy d
  | rdMsgLenLo => exact decode_encodeRead (classify_eq_msgLenLo.mpr rfl) busy
  | rdMsgLenHi => exact decode_encodeRead (classify_eq_msgLenHi.mpr rfl) busy
  | wrDigest i d => exact decode_encodeWrite (classify_digestOffset cap i) busy d
  | rdDigest i => exact decode_encodeRead (classify_digestOffset cap i) busy
  | wrMsgwin k d => exact decode_encodeWrite (classify_windowOffset hc (of_decide_eq_true hw)) busy d
  | rdMsgwin k => exact decode_encodeRead (classify_windowOffset hc (of_decide_eq_true hw)) busy
  | wrReserved a d => exact decode_encodeWrite (classify_reservedOffset hc (of_decide_eq_true hw)) busy d
  | rdReserved a => exact decode_encodeRead (classify_reservedOffset hc (of_decide_eq_true hw)) busy
  | esIdle | esPad | esLoad | esSched | esCinit | esRound | esFold | esDone | esError | esReserved9 | esReserved10
  | esReserved11 | esReserved12 | esReserved13 | esReserved14 | esReserved15 => rfl

/-! ## What was decoded encodes to the form it came from -/

theorem encode_decodeCommand (busy : Bool) (d : Word) : encode (decodeCommand busy d) = encodeWrite 0 d := by
  unfold decodeCommand
  split_ifs with _ h0 h1
  · rfl
  · exact congrArg (encodeWrite 0) h0.symm
  · exact congrArg (encodeWrite 0) h1.symm
  · rfl

/-- Each row of an offset writes that offset: for each target, the encoder's offset of its rows (R81, R83). -/
theorem encode_rows_classify (hc : Config.legalMsgCap cap) (busy : Bool) (a d : Word) :
    encode ((classify cap a).writeRow busy d) = encodeWrite a d ∧ encode (classify cap a).readRow = encodeRead a := by
  obtain ⟨low, hi, h, hl, ha⟩ | ⟨h, ha⟩ | ⟨h, ha⟩ | ⟨h, ha⟩ | ⟨h, ha⟩ | ⟨i, h, ha⟩ | ⟨k, h, ha, -⟩ | ⟨hi, h, ha, -⟩ :=
    classify_cases hc a
  all_goals rw [h, ha]
  case inl => obtain rfl | rfl | rfl := low_cases hl <;> exact ⟨rfl, rfl⟩
  case inr.inl => exact ⟨encode_decodeCommand busy d, rfl⟩
  all_goals exact ⟨rfl, rfl⟩

theorem encode_decodeEngine (phase : BitVec 4) : encode (decodeEngine phase) = .engine phase := by
  revert phase
  decide

/-- Settles O2: one law for each of the three formats. -/
theorem encodeOfDecodeIsTheCanonicalForm : Obligations.EncodeOfDecodeIsTheCanonicalForm := by
  intro cap busy e hc
  rcases e with (word | word) | phase
  · calc encode (decodeWrite cap busy word)
      _ = encodeWrite (TxWord.addr word) (TxWord.data word) := (encode_rows_classify hc busy _ _).1
      _ = .host (.write word) := by rw [encodeWrite, TxWord.mk_addr_data]
  · exact (encode_rows_classify hc busy (TxWord.addr word) 0).2
  · exact encode_decodeEngine phase

/-! ## What was decoded is well formed -/

/-- A well-formed term whose condition on BUSY holds: what a decoder can give (R83, R85, R201). -/
def FitsRow (cap : Nat) (busy : Bool) (i : Instr) : Prop := i.wf cap = true ∧ i.fitsBusy busy = true

theorem decodeCommand_fitsRow (cap : Nat) (busy : Bool) (d : Word) : FitsRow cap busy (decodeCommand busy d) := by
  cases busy with
  | true => exact ⟨rfl, rfl⟩
  | false =>
    simp only [decodeCommand, Bool.false_eq_true, if_false]
    split_ifs with h0 h1
    · exact ⟨rfl, rfl⟩
    · exact ⟨rfl, rfl⟩
    · exact ⟨decide_eq_true ⟨h0, h1⟩, rfl⟩

/-- The operands the decode order gives are in the ranges of their rows (R83). -/
theorem rows_classify_fitsRow (hc : Config.legalMsgCap cap) (busy : Bool) (a d : Word) :
    FitsRow cap busy ((classify cap a).writeRow busy d) ∧ FitsRow cap busy (classify cap a).readRow := by
  obtain ⟨low, hi, h, hl, -⟩ | ⟨h, -⟩ | ⟨h, -⟩ | ⟨h, -⟩ | ⟨h, -⟩ | ⟨i, h, -⟩ | ⟨k, h, -, hk⟩ | ⟨hi, h, -, hr⟩ :=
    classify_cases hc a
  all_goals rw [h]
  · obtain rfl | rfl | rfl := low_cases hl <;> exact ⟨⟨rfl, rfl⟩, ⟨rfl, rfl⟩⟩
  · exact ⟨decodeCommand_fitsRow cap busy d, ⟨rfl, rfl⟩⟩
  · exact ⟨⟨rfl, rfl⟩, ⟨rfl, rfl⟩⟩
  · exact ⟨⟨rfl, rfl⟩, ⟨rfl, rfl⟩⟩
  · exact ⟨⟨rfl, rfl⟩, ⟨rfl, rfl⟩⟩
  · exact ⟨⟨rfl, rfl⟩, ⟨rfl, rfl⟩⟩
  · exact ⟨⟨decide_eq_true hk, rfl⟩, ⟨decide_eq_true hk, rfl⟩⟩
  · exact ⟨⟨decide_eq_true hr, rfl⟩, ⟨decide_eq_true hr, rfl⟩⟩

/-- An engine step has no operand and no condition on BUSY. -/
theorem decodeEngine_fitsRow (cap : Nat) (busy : Bool) (phase : BitVec 4) :
    FitsRow cap busy (decodeEngine phase) := by
  rcases phase_cases phase with ⟨p, rfl⟩ | hp
  · rw [decodeEngine_code]
    cases p <;> exact ⟨rfl, rfl⟩
  · have h := decodeEngine_reserved hp
    simp only [List.mem_cons, List.not_mem_nil, or_false] at h
    rcases h with h | h | h | h | h | h | h <;> rw [h] <;> exact ⟨rfl, rfl⟩

/-- Settles O3: one law for each of the three formats. -/
theorem decodedInstructionsAreWellFormed : Obligations.DecodedInstructionsAreWellFormed := by
  intro cap busy e hc
  rcases e with (word | word) | phase
  · exact (rows_classify_fitsRow hc busy (TxWord.addr word) (TxWord.data word)).1
  · exact (rows_classify_fitsRow hc busy (TxWord.addr word) 0).2
  · exact decodeEngine_fitsRow cap busy phase

/-! ## The decode order of an offset -/

/-- Bits 31:2 of an offset are the number of its aligned word (R81). -/
theorem toNat_wordIndex (a : Word) : (a.extractLsb' 2 30).toNat = a.toNat / 4 := by
  have := a.isLt
  rw [toNat_field]
  omega

/-- The DIGEST offsets (R83 case 6). -/
theorem classify_digest {a : Word} (hm : a.toNat % 4 = 0) (h1 : 0x20 ≤ a.toNat) (h2 : a.toNat ≤ 0x3C) :
    ∃ i, classify cap a = .digest i ∧ i.toNat = (a.toNat - 0x20) / 4 := by
  have h20 : (0x20 : Word).toNat = 0x20 := rfl
  rw [classify_above hm (by omega), if_pos ⟨h1, h2⟩]
  refine ⟨_, rfl, ?_⟩
  rw [toNat_field, toNat_sub_of_le _ (by omega), h20]
  omega

/-- The window offsets (R83 case 7). MSG_CAP is a multiple of 4, so the whole word lies in the buffer. -/
theorem classify_msgwin {a : Word} (hc : cap % 4 = 0) (hm : a.toNat % 4 = 0) (h1 : 0x1000 ≤ a.toNat)
    (h2 : a.toNat < 0x1000 + cap) :
    ∃ k, classify cap a = .msgwin k ∧ k.toNat = (a.toNat - 0x1000) / 4 ∧ 4 * k.toNat + 3 < cap := by
  have h1000 : (0x1000 : Word).toNat = 0x1000 := rfl
  rw [classify_above hm (by omega), if_neg (by omega), if_pos ⟨h1, h2⟩]
  refine ⟨_, rfl, ?_⟩
  rw [toNat_wordIndex, toNat_sub_of_le _ (by omega), h1000]
  omega

/-- Settles O4: `classify_misaligned` is case 1, `classify_above` the order of cases 6 to 8, and each register of cases 2 to 5
has one offset. -/
theorem offsetsAreDecodedInOrder : Obligations.OffsetsAreDecodedInOrder := by
  intro cap a hc
  refine ⟨fun hm => ⟨?_, fun busy d s => ?_⟩, fun h => ?_, fun h => ?_, fun h => ?_, fun h => ?_, classify_digest,
    classify_msgwin hc.1, fun hm h1 h2 h3 => ?_⟩
  · exact ⟨_, _, classify_misaligned hm, by rw [toNat_field]; omega, toNat_wordIndex a⟩
  · have ht := classify_misaligned_or_reserved (cap := cap) (a := TxWord.addr (TxWord.mk a d)) (.inl (by simpa using hm))
    exact ⟨exec_decodeWrite_noEffect ht busy s, exec_decodeRead_zero ht s⟩
  · exact classify_eq_cmd.mpr (BitVec.eq_of_toNat_eq h)
  · obtain rfl : a = 4 := BitVec.eq_of_toNat_eq h
    exact classify_status cap
  · exact classify_eq_msgLenLo.mpr (BitVec.eq_of_toNat_eq h)
  · exact classify_eq_msgLenHi.mpr (BitVec.eq_of_toNat_eq h)
  · rw [classify_above hm h1, if_neg (by omega), if_neg (by omega)]
    exact ⟨_, rfl, toNat_wordIndex a⟩

/-! ## Phase codes, and words written out -/

/-- Settles O5: the sixteen codes of the table. -/
theorem phaseCodesSelectTheEngineStep : Obligations.PhaseCodesSelectTheEngineStep := by
  unfold Obligations.PhaseCodesSelectTheEngineStep
  decide

/-- Settles O6: ten closed words. -/
theorem scriptWordsDecode : Obligations.ScriptWordsDecode := by
  unfold Obligations.ScriptWordsDecode
  decide

/-! ## Reserved phases -/

/-- A named code is at most 8 (R88). -/
theorem toNat_phaseCode_le (p : Phase) : p.code.toNat ≤ 8 := by
  cases p <;> decide

/-- Whichever of two named phases is next, the phase is named. -/
theorem toNat_ite_phaseCode_le (c : Prop) [Decidable c] (p q : Phase) :
    (if c then p.code else q.code).toNat ≤ 8 := by
  split_ifs
  · exact toNat_phaseCode_le p
  · exact toNat_phaseCode_le q

/-- An engine step that answers leaves a named phase: the phase it stays in, or one that a step writes (R89, R190). -/
theorem phase_le_of_exec_decodeEngine {s t : State} (h : exec (decodeEngine s.phase) s = .next t) :
    t.phase.toNat ≤ 8 := by
  rcases exec_decodeEngine_cases h with ⟨hp, rfl⟩ | ⟨-, -, rfl⟩ | ⟨-, -, -, rfl⟩ | ⟨-, -, -, rfl⟩ |
    ⟨-, -, _, -, rfl⟩ | ⟨-, -, rfl⟩ | ⟨-, rfl⟩ | ⟨-, -, rfl⟩ | ⟨-, rfl⟩
  · rcases hp with hp | hp | hp <;> rw [hp] <;> decide
  · exact toNat_phaseCode_le .error
  · exact toNat_phaseCode_le .error
  · exact toNat_phaseCode_le .load
  · exact toNat_phaseCode_le .sched
  · exact toNat_ite_phaseCode_le _ .cinit .sched
  · exact toNat_phaseCode_le .round
  · exact toNat_ite_phaseCode_le _ .fold .round
  · exact toNat_ite_phaseCode_le _ .done .load

/-- A host transaction keeps PHASE, or writes PAD or ERROR there (R203, R205). -/
theorem phase_le_of_step_host {s t : State} {x : Transaction} {es : List Event} (hi : s.inputs = .host x :: es)
    (hp : s.phase.toNat ≤ 8) (h : step s = .next t) : t.phase.toNat ≤ 8 := by
  obtain ⟨t', ht', hcases⟩ := step_host_cases hi hp
  obtain rfl := Host.Outcome.next.inj (ht'.symm.trans h)
  rcases hcases with ⟨_, -, _, _, rfl⟩ | ⟨_, -, rfl, -⟩ | ⟨_, -, -, -, -, rfl⟩ | ⟨_, -, -, -, -, -, rfl⟩ |
    ⟨_, -, -, -, _, rfl⟩ | ⟨_, -, -, -, _, -, rfl⟩
  case inr.inr.inl => exact toNat_phaseCode_le .pad
  case inr.inr.inr.inl => exact toNat_phaseCode_le .error
  all_goals exact hp

/-- No step writes a reserved code (R89). -/
theorem phase_le_of_step {s t : State} (hp : s.phase.toNat ≤ 8) (h : step s = .next t) : t.phase.toNat ≤ 8 := by
  obtain he | ⟨x, es, hi⟩ | ⟨es, hi⟩ := s.nextEvent_cases
  · rw [step_of_engineNext he] at h
    exact phase_le_of_exec_decodeEngine (s := s.withInputs s.restInputs) h
  · exact phase_le_of_step_host hi hp h
  · obtain rfl := Host.Outcome.next.inj ((step_of_reset hi).symm.trans h)
    exact toNat_phaseCode_le .idle

/-- Settles O34: `step_of_reservedPhase` is the fault in a reserved phase, and `phase_le_of_step` keeps the machine out of
one. -/
theorem reservedPhasesFault : Obligations.ReservedPhasesFault :=
  fun _ => ⟨rfl, rfl, rfl, rfl, rfl, rfl, rfl, step_of_reservedPhase, toNat_phaseCode_le .idle, fun _ => phase_le_of_step⟩

end Sys2Proof.Machine
end

section
/-! PROOFS. The padder (40_padder.md): what PAD answers (O24, O25), the bytes of the padded message (O26), the words LOAD
parses (O27), and the invariant of R118 at reset and along every step (O43, O44). -/

namespace Sys2Proof.Machine

variable {s t : State}

/-! ## PAD -/

theorem execEsPad_of_inputTooLarge (h : 2 ^ 61 ≤ s.msgLen.toNat) : execEsPad s = .next (raiseError .inputTooLarge s) :=
  if_pos h

theorem execEsPad_of_bufferOverrun (h : s.msgLen.toNat < 2 ^ 61) (hc : s.msgCap < s.msgLen.toNat) :
    execEsPad s = .next (raiseError .bufferOverrun s) :=
  (if_neg (by omega)).trans (if_pos hc)

theorem execEsPad_of_fits (h : s.msgLen.toNat < 2 ^ 61) (hc : s.msgLen.toNat ≤ s.msgCap) :
    execEsPad s = .next (beginBlocks s) :=
  (if_neg (by omega)).trans (if_neg (by omega))

/-- The block count of a length below 2^61 fits in NBLK (R112). -/
theorem toNat_beginBlocks_nblk (h : s.msgLen.toNat < 2 ^ 61) :
    (beginBlocks s).nblk.toNat = blockCount s.msgLen.toNat := by
  rw [beginBlocks_nblk, BitVec.toNat_ofNat, blockCount]
  omega

/-- Settles O24: each outcome is one branch of PAD. -/
theorem padStepChecksTheLengthAndBeginsTheBlocks : Obligations.PadStepChecksTheLengthAndBeginsTheBlocks :=
  fun s => ⟨execEsPad_of_inputTooLarge, execEsPad_of_bufferOverrun, fun h hc =>
    ⟨beginBlocks s, execEsPad_of_fits h hc, toNat_beginBlocks_nblk h, rfl, rfl, rfl, rfl, rfl, rfl, rfl,
      ⟨rfl, rfl, fun _ => rfl⟩, rfl, rfl, rfl⟩⟩

/-- Settles O25: a length within a legal MSG_CAP passes both tests, and the rest is arithmetic of `(L + 72) / 64`. -/
theorem padBlockCountIsTheSmallestThatFits : Obligations.PadBlockCountIsTheSmallestThatFits := by
  rintro s t ⟨-, -, hcap⟩ hc ht
  have hlen : s.msgLen.toNat < 2 ^ 61 := by omega
  obtain rfl := Host.Outcome.next.inj ((execEsPad_of_fits hlen hc).symm.trans ht)
  rw [toNat_beginBlocks_nblk hlen, blockCount]
  refine ⟨rfl, ?_, ?_, ?_, fun n hn => ?_, ?_, ?_, ?_⟩ <;> omega

/-! ## The padded message -/

/-- The message bytes come first (R113). -/
theorem State.padByte_of_written {j : Nat} {b : Byte} (hj : j < s.msgLen.toNat) (hr : s.mem.read j = some b) :
    s.padByte j = .ok b := by
  rw [State.padByte, if_pos hj, State.msgRead, hr]

/-- The terminator follows the message (R113). -/
theorem State.padByte_terminator : s.padByte s.msgLen.toNat = .ok 0x80 := by
  rw [State.padByte, if_neg (Nat.lt_irrefl _), if_pos rfl]

/-- Zeros fill up to the last eight bytes (R113). -/
theorem State.padByte_zeros {j : Nat} (h1 : s.msgLen.toNat < j) (h2 : j < s.paddedLen - 8) : s.padByte j = .ok 0x00 := by
  rw [State.padByte, if_neg (by omega), if_neg (by omega), if_pos h2]

/-- The last eight bytes hold 8L, most significant byte first (R113). -/
theorem State.padByte_lengthField {i : Nat} (hfits : s.msgLen.toNat + 9 ≤ s.paddedLen) (hi : i < 8) :
    s.padByte (s.paddedLen - 8 + i) = .ok (BitVec.ofNat 8 (8 * s.msgLen.toNat / 256 ^ (7 - i))) := by
  have he : 8 * (s.paddedLen - 1 - (s.paddedLen - 8 + i)) = 8 * (7 - i) := by omega
  rw [State.padByte, if_neg (by omega), if_neg (by omega), if_neg (by omega), he, Nat.shiftRight_eq_div_pow, Nat.pow_mul]

/-- Settles O26: the four regions of PadByte, with room for the terminator and the length field. -/
theorem paddedMessageHasTheRuledBytes : Obligations.PaddedMessageHasTheRuledBytes := by
  intro s hlen hn
  have hfits : s.msgLen.toNat + 9 ≤ s.paddedLen := by
    rw [State.paddedLen, hn]
    omega
  exact ⟨fun _ _ => State.padByte_of_written, State.padByte_terminator, fun _ => State.padByte_zeros,
    fun _ hi => ⟨_, State.padByte_lengthField hfits hi, BitVec.toNat_ofNat _ _⟩, by omega⟩

/-! ## LOAD -/

/-- Settles O27: with every message byte of the block written LOAD has the words, and each is the big-endian word of its
four padded bytes. -/
theorem loadStepParsesTheBlock : Obligations.LoadStepParsesTheBlock := by
  intro s hb hw
  obtain ⟨xs, hxs, hload⟩ | ⟨e, -, h1, h2, h3, hr⟩ := execEsLoad_cases hb
  · obtain ⟨hl, hwords⟩ := State.padWords_eq_ok.mp hxs
    refine ⟨_, hload, fun k hk => ?_, fun k hk h16 => ?_, rfl, rfl, rfl, rfl, rfl, rfl, rfl, ⟨rfl, rfl, fun _ => rfl⟩,
      rfl, rfl, rfl⟩
    · obtain ⟨b0, b1, b2, b3, h0, h1, h2, h3, hx⟩ := State.padWord_eq_ok.mp (hwords k (by omega))
      refine ⟨b0, b1, b2, b3, h0, h1, h2, h3, ?_⟩
      rw [getElem_loadWords, List.getElem?_eq_getElem (by omega), Option.getD_some, hx, toNat_be32]
    · rw [getElem_loadWords, List.getElem?_eq_none (by omega), Option.getD_none]
  · have hsome := hw e h1 h2 h3
    rw [hr] at hsome
    cases hsome

/-! ## The invariant outside the blocks -/

/-- The clauses on BLK, NBLK and T speak of the block phases alone (R118). -/
theorem State.Inv.of_not_inBlocks (hcap : Config.legalMsgCap s.msgCap) (hwf : s.mem.wf)
    (hbuf : ∀ c ∈ s.mem, c.1 < s.msgCap) (hphase : s.phase.toNat ≤ 8)
    (herr : s.err = ErrCode.noError.code ∨ s.err = ErrCode.inputTooLarge.code ∨
      s.err = ErrCode.bufferOverrun.code ∨ s.err = ErrCode.badCommand.code)
    (herror : s.phase = Phase.error.code ↔ s.err ≠ ErrCode.noError.code) (hn : ¬ s.inBlocks) : s.Inv where
  capLegal := hcap
  memWf := hwf
  memInBuffer := hbuf
  phaseNamed := hphase
  errRaised := herr
  errorPhase := herror
  blocks := fun h => absurd h hn
  schedT := fun h => absurd (.inr (.inl h)) hn
  roundT := fun h => absurd (.inr (.inr (.inr (.inl h)))) hn

/-- PAD is busy, but before the blocks. -/
theorem not_inBlocks_of_pad (h : s.phase = Phase.pad.code) : ¬ s.inBlocks := by
  simp [State.inBlocks, h]

/-- Settles O43: reset is in IDLE without an error, over an empty MSGMEM. -/
theorem invariantHoldsAtReset : Obligations.InvariantHoldsAtReset :=
  .of_not_inBlocks (by decide) List.Pairwise.nil (by simp [State.reset]) (toNat_phaseCode_le .idle) (.inl rfl) (by decide)
    (not_inBlocks_of_not_busy rfl)

theorem State.Inv.resetInput (h : s.Inv) : (resetInput s).Inv :=
  .of_not_inBlocks h.capLegal List.Pairwise.nil (by simp) (toNat_phaseCode_le .idle) (.inl rfl)
    (by simp) (not_inBlocks_of_not_busy rfl)

/-- The error entry with a code that is raised (60_exceptions.md R241, R250). -/
theorem State.Inv.raiseError {e : ErrCode} (h : s.Inv) (he : e = .inputTooLarge ∨ e = .bufferOverrun ∨ e = .badCommand) :
    (raiseError e s).Inv := by
  refine .of_not_inBlocks h.capLegal h.memWf h.memInBuffer (toNat_phaseCode_le .error) ?_ ?_
    (not_inBlocks_of_not_busy rfl)
  all_goals rcases he with rfl | rfl | rfl <;> simp [ErrCode.code]

theorem State.Inv.beginJob (h : s.Inv) : (beginJob s).Inv :=
  .of_not_inBlocks h.capLegal h.memWf h.memInBuffer (toNat_phaseCode_le .pad) (.inl rfl) (by simp)
    (not_inBlocks_of_pad rfl)

/-- Outside a job MSG_LEN is free: PAD tests it (R110). -/
theorem State.Inv.withMsgLen (h : s.Inv) (hb : s.busy = false) (len : BitVec 64) : (s.withMsgLen len).Inv :=
  .of_not_inBlocks h.capLegal h.memWf h.memInBuffer h.phaseNamed h.errRaised h.errorPhase (not_inBlocks_of_not_busy hb)

/-- A window word lies inside the buffer, because MSG_CAP is a multiple of 4 (44_host_interface.md R209). -/
theorem State.Inv.withMem_writeWord (h : s.Inv) {k : Nat} (hk : 4 * k < s.msgCap) (d : Word) :
    (s.withMem (s.mem.writeWord k d)).Inv where
  capLegal := h.capLegal
  memWf := Memory.wf_writeWord k d h.memWf
  memInBuffer := by
    intro c hc
    show c.1 < s.msgCap
    obtain ⟨h4, -, -⟩ := h.capLegal
    obtain ⟨-, hlt⟩ | hold := Memory.mem_writeWord hc
    · omega
    · exact h.memInBuffer c hold
  phaseNamed := h.phaseNamed
  errRaised := h.errRaised
  errorPhase := h.errorPhase
  blocks := h.blocks
  schedT := h.schedT
  roundT := h.roundT

theorem State.Inv.readReturns_drawn (h : s.Inv) (r : Word) (n : Nat) : (readReturns r (s.drawn n)).Inv :=
  ⟨h.capLegal, h.memWf, h.memInBuffer, h.phaseNamed, h.errRaised, h.errorPhase, h.blocks, h.schedT, h.roundT⟩

/-! ## The invariant inside the blocks -/

/-- An engine step from one phase without error to the next keeps MSGMEM, MSG_CAP and ERR; what is left of the invariant is
the counters of the phase it enters (R118). -/
theorem State.Inv.of_engineMove {p : Phase} (h : s.Inv) (hs : s.phase ≠ Phase.error.code) (htp : t.phase = p.code)
    (hp : p ≠ .error) (hmem : t.mem = s.mem) (hcap : t.msgCap = s.msgCap) (herr : t.err = s.err)
    (hblocks : t.inBlocks →
      t.msgLen.toNat ≤ t.msgCap ∧ t.nblk.toNat = blockCount t.msgLen.toNat ∧ t.blk.toNat < t.nblk.toNat)
    (hsched : p = .sched → 16 ≤ t.t.toNat ∧ t.t.toNat < 64)
    (hround : p = .round → t.t.toNat < 64) : t.Inv where
  capLegal := by rw [hcap]; exact h.capLegal
  memWf := by rw [hmem]; exact h.memWf
  memInBuffer := by rw [hmem, hcap]; exact h.memInBuffer
  phaseNamed := by rw [htp]; exact toNat_phaseCode_le p
  errRaised := by rw [herr]; exact h.errRaised
  errorPhase := by
    rw [herr, ← h.errorPhase, htp, Phase.code_inj]
    exact iff_of_false hp hs
  blocks := hblocks
  schedT := fun hq => hsched (Phase.code_inj.mp (htp.symm.trans hq))
  roundT := fun hq => hround (Phase.code_inj.mp (htp.symm.trans hq))

/-- PAD enters block 0, and the message fits (R110, R112). -/
theorem State.Inv.beginBlocks (h : s.Inv) (hp : s.phase = Phase.pad.code) (hfits : s.msgLen.toNat ≤ s.msgCap) :
    (beginBlocks s).Inv := by
  have hcap := h.capLegal.2.2
  have hn : (Machine.beginBlocks s).nblk.toNat = blockCount s.msgLen.toNat := toNat_beginBlocks_nblk (by omega)
  refine h.of_engineMove (p := .load) (by simp [hp]) rfl (by simp) rfl rfl rfl (fun _ => ⟨hfits, hn, ?_⟩)
    (by simp) (by simp)
  rw [hn]
  exact (blockCount_bounds _).2.1

/-- LOAD enters SCHED at word 16 (R117). -/
theorem State.Inv.loadStep (h : s.Inv) (hp : s.phase = Phase.load.code) (w : Vector Word 64) :
    State.Inv { s with w := w, t := 16, phase := Phase.sched.code } :=
  h.of_engineMove (p := .sched) (by simp [hp]) rfl (by simp) rfl rfl rfl (fun _ => h.blocks (.inl hp))
    (fun _ => by simp) (by simp)

/-- SCHED counts T up to 64 and leaves for CINIT there (41_scheduler.md R146). -/
theorem State.Inv.schedStep (h : s.Inv) (hp : s.phase = Phase.sched.code) (w : Vector Word 64) :
    (countStep .sched .cinit { s with w := w }).Inv := by
  obtain ⟨h16, h64⟩ := h.schedT hp
  have ht := toNat_countStep_t (s := { s with w := w }) .sched .cinit h64
  refine h.of_engineMove (p := if s.t.toNat + 1 = 64 then .cinit else .sched) (by simp [hp]) (apply_ite _ _ _ _).symm
    (by split_ifs <;> simp) rfl rfl rfl (fun _ => h.blocks (.inr (.inl hp))) (fun hq => ?_) (by split_ifs <;> simp)
  rw [ht]
  split_ifs at hq
  show 16 ≤ s.t.toNat + 1 ∧ s.t.toNat + 1 < 64
  omega

/-- CINIT enters ROUND at round 0 (42_compressor.md R170). -/
theorem State.Inv.cinitStep (h : s.Inv) (hp : s.phase = Phase.cinit.code) (v : Vector Word 8) :
    State.Inv { s with v := v, t := 0, phase := Phase.round.code } :=
  h.of_engineMove (p := .round) (by simp [hp]) rfl (by simp) rfl rfl rfl (fun _ => h.blocks (.inr (.inr (.inl hp))))
    (by simp) (fun _ => by simp)

/-- ROUND counts T up to 64 and leaves for FOLD there (R171). -/
theorem State.Inv.roundStep (h : s.Inv) (hp : s.phase = Phase.round.code) (v : Vector Word 8) :
    (countStep .round .fold { s with v := v }).Inv := by
  have h64 := h.roundT hp
  have ht := toNat_countStep_t (s := { s with v := v }) .round .fold h64
  refine h.of_engineMove (p := if s.t.toNat + 1 = 64 then .fold else .round) (by simp [hp]) (apply_ite _ _ _ _).symm
    (by split_ifs <;> simp) rfl rfl rfl (fun _ => h.blocks (.inr (.inr (.inr (.inl hp))))) (by split_ifs <;> simp)
    (fun hq => ?_)
  rw [ht]
  split_ifs at hq
  show s.t.toNat + 1 < 64
  omega

/-- FOLD enters DONE after the last block, and LOAD at the next block before that (R172). -/
theorem State.Inv.foldStep (h : s.Inv) (hp : s.phase = Phase.fold.code) (hash : Vector Word 8) :
    State.Inv { s with
      h := hash
      blk := s.blk + 1
      phase := if s.blk.toNat + 1 = s.nblk.toNat then Phase.done.code else Phase.load.code } := by
  obtain ⟨hfits, hn, hlt⟩ := h.blocks (.inr (.inr (.inr (.inr hp))))
  have hblk : (s.blk + 1).toNat = s.blk.toNat + 1 := by
    have h1 : (1 : BitVec 64).toNat = 1 := rfl
    rw [BitVec.toNat_add, h1]
    omega
  by_cases hlast : s.blk.toNat + 1 = s.nblk.toNat
  · rw [if_pos hlast]
    exact h.of_engineMove (p := .done) (by simp [hp]) rfl (by simp) rfl rfl rfl
      (fun hb => absurd hb (not_inBlocks_of_not_busy rfl)) (by simp) (by simp)
  · rw [if_neg hlast]
    refine h.of_engineMove (p := .load) (by simp [hp]) rfl (by simp) rfl rfl rfl (fun _ => ⟨hfits, hn, ?_⟩)
      (by simp) (by simp)
    show (s.blk + 1).toNat < s.nblk.toNat
    omega

/-! ## The invariant along a step -/

/-- An engine step that answers keeps the invariant, in each phase (R118). -/
theorem State.Inv.of_exec_decodeEngine (h : s.Inv) (ht : exec (decodeEngine s.phase) s = .next t) : t.Inv := by
  rcases exec_decodeEngine_cases ht with ⟨-, rfl⟩ | ⟨-, -, rfl⟩ | ⟨-, -, -, rfl⟩ | ⟨hp, -, hfits, rfl⟩ |
    ⟨hp, -, xs, -, rfl⟩ | ⟨hp, -, rfl⟩ | ⟨hp, rfl⟩ | ⟨hp, -, rfl⟩ | ⟨hp, rfl⟩
  · exact h
  · exact h.raiseError (.inl rfl)
  · exact h.raiseError (.inr (.inl rfl))
  · exact h.beginBlocks hp hfits
  · exact h.loadStep hp _
  · exact h.schedStep hp _
  · exact h.cinitStep hp _
  · exact h.roundStep hp _
  · exact h.foldStep hp _

/-- A host transaction keeps the invariant: a read and a dropped write change none of its clauses, and the rest land outside
a job (20_memory.md R61). -/
theorem State.Inv.of_step_host {x : Transaction} {es : List Event} (h : s.Inv) (hi : s.inputs = .host x :: es)
    (ht : step s = .next t) : t.Inv := by
  obtain ⟨t', ht', hcases⟩ := step_host_cases hi h.phaseNamed
  obtain rfl := Host.Outcome.next.inj (ht'.symm.trans ht)
  have hu : (s.withInputs es).Inv := h.withInputs es
  rcases hcases with ⟨_, -, r, n, rfl⟩ | ⟨_, -, rfl, -⟩ | ⟨_, -, -, -, -, rfl⟩ | ⟨_, -, -, -, -, -, rfl⟩ |
    ⟨_, -, hb, -, len, rfl⟩ | ⟨_, -, -, -, k, hk, rfl⟩
  · exact hu.readReturns_drawn r n
  · exact hu
  · exact hu.beginJob
  · exact hu.raiseError (.inr (.inr rfl))
  · exact hu.withMsgLen hb len
  · exact hu.withMem_writeWord hk _

/-- Settles O44: the engine's turn, a host transaction and the reset input each keep the invariant. -/
theorem everyStepKeepsTheInvariant : Obligations.EveryStepKeepsTheInvariant := by
  intro s t h ht
  obtain he | ⟨x, es, hi⟩ | ⟨es, hi⟩ := s.nextEvent_cases
  · rw [step_of_engineNext he] at ht
    exact (h.withInputs s.restInputs).of_exec_decodeEngine ht
  · exact h.of_step_host hi ht
  · obtain rfl := Host.Outcome.next.inj ((step_of_reset hi).symm.trans ht)
    exact (h.withInputs es).resetInput

end Sys2Proof.Machine
end

section
/-! PROOFS. The scheduler (41_scheduler.md): the rotation, the shift and the sigma functions bit by bit (O36, O37), the SCHED
step (O29), and the schedule that 48 of them leave in W (O51). -/

namespace Sys2Proof.Machine

variable {s : State}

/-! ## Rotation, shift and sigma -/

/-- The logical right shift moves bit i + n to bit i; a bit of `x` past the top is 0 (R141). -/
theorem getLsbD_shr (x : Word) (n i : Nat) : (shr x n).getLsbD i = x.getLsbD (i + n) := by
  rw [shr, BitVec.getLsbD_ushiftRight, Nat.add_comm]

/-- The right rotation of R140 is the library's. -/
theorem rotr_eq_rotateRight (x : Word) {n : Nat} (hn : n < 32) : rotr x n = x.rotateRight n := by
  rw [BitVec.rotateRight_def, Nat.mod_eq_of_lt hn, rotr]
  split_ifs with h0
  · simp [h0]
  · rfl

/-- The right rotation moves bit (i + n) mod 32 to bit i (R140). -/
theorem getLsbD_rotr (x : Word) {n i : Nat} (hn : n < 32) (hi : i < 32) :
    (rotr x n).getLsbD i = x.getLsbD ((i + n) % 32) := by
  rw [rotr_eq_rotateRight x hn, BitVec.getLsbD_rotateRight, Nat.mod_eq_of_lt hn]
  by_cases hlow : i < 32 - n
  · have hk : (i + n) % 32 = n + i := by omega
    simp [hlow, hk]
  · have hk : (i + n) % 32 = i - (32 - n) := by omega
    simp [hlow, hk, hi]

/-- Settles O36: one law for the rotation and one for the shift; a bit of `x` at 32 or above is 0. -/
theorem rotationAndShiftBitByBit : Obligations.RotationAndShiftBitByBit :=
  fun x n hn i hi => ⟨getLsbD_rotr x (by omega) hi, fun _ => getLsbD_shr x n i, fun h =>
    (getLsbD_shr x n i).trans (BitVec.getLsbD_of_ge x (i + n) h)⟩

/-- A shifted bit, with the test that it lies in the word written out. -/
theorem getLsbD_shr_eq_and (x : Word) (n i : Nat) :
    (shr x n).getLsbD i = (decide (i + n ≤ 31) && x.getLsbD (i + n)) := by
  rw [getLsbD_shr]
  by_cases h : i + n ≤ 31
  · simp [h]
  · simp [h, BitVec.getLsbD_of_ge x (i + n) (by omega)]

/-- Settles O37: bit i of an exclusive or, and then the law of each rotation (`getLsbD_rotr`) and shift. -/
theorem sigmaFunctionsBitByBit : Obligations.SigmaFunctionsBitByBit := by
  intro x i hi
  refine ⟨?_, ?_, ?_, ?_⟩
  · simp (disch := omega) only [smallSigma0, BitVec.getLsbD_xor, getLsbD_rotr, getLsbD_shr_eq_and]
  · simp (disch := omega) only [smallSigma1, BitVec.getLsbD_xor, getLsbD_rotr, getLsbD_shr_eq_and]
  · simp (disch := omega) only [bigSigma0, BitVec.getLsbD_xor, getLsbD_rotr]
  · simp (disch := omega) only [bigSigma1, BitVec.getLsbD_xor, getLsbD_rotr]

/-! ## The SCHED step -/

/-- The state SCHED leaves with T in range: schedule word T, T + 1, and CINIT after word 63 (R146). -/
def schedStep (s : State) (ht : 16 ≤ s.t.toNat ∧ s.t.toNat < 64) : State :=
  countStep .sched .cinit { s with w := s.w.set s.t.toNat (nextScheduleWord s.w s.t.toNat ht) ht.2 }

theorem execEsSched_of_inRange (ht : 16 ≤ s.t.toNat ∧ s.t.toNat < 64) : execEsSched s = .next (schedStep s ht) :=
  dif_pos ht

theorem toNat_schedStep_t (ht : 16 ≤ s.t.toNat ∧ s.t.toNat < 64) : (schedStep s ht).t.toNat = s.t.toNat + 1 :=
  toNat_countStep_t .sched .cinit ht.2

theorem schedStep_phase (ht : 16 ≤ s.t.toNat ∧ s.t.toNat < 64) :
    (schedStep s ht).phase = if s.t.toNat + 1 = 64 then Phase.cinit.code else Phase.sched.code := rfl

/-- Settles O29: word T is set and no other, and T + 1 = 64 decides the phase. -/
theorem schedStepComputesTheNextWord : Obligations.SchedStepComputesTheNextWord := by
  intro s ht
  refine ⟨schedStep s ht, execEsSched_of_inRange ht, Vector.getElem_set_self ht.2,
    fun i hi hne => Vector.getElem_set_ne ht.2 hi hne.symm, toNat_schedStep_t ht, fun h => ?_, fun h => ?_,
    rfl, rfl, rfl, rfl, rfl, ⟨rfl, rfl, fun _ => rfl⟩, rfl, rfl, rfl⟩
  · exact (schedStep_phase ht).trans (if_pos (by omega))
  · exact (schedStep_phase ht).trans (if_neg (by omega))

/-! ## The schedule -/

/-- Setting schedule word T extends the words before it as the recurrence does (R145). -/
theorem refExtend_succ_take (w : Vector Word 64) {t : Nat} (n : Nat) (ht : 16 ≤ t ∧ t < 64) :
    refExtend (n + 1) (w.toList.take t) =
      refExtend n ((w.set t (nextScheduleWord w t ht) ht.2).toList.take (t + 1)) := by
  have hl : (w.toList.take t).length = t := by simp; omega
  have hget (j : Nat) (hj : j < 64) (hjt : j < t) : (w.toList.take t).getD j 0 = w[j] := by
    simp [hj, hjt]
  rw [refExtend, hl, hget _ (by omega) (by omega), hget _ (by omega) (by omega), hget _ (by omega) (by omega),
    hget _ (by omega) (by omega)]
  have hn : (w.set t (nextScheduleWord w t ht) ht.2).toList[t]? = some (nextScheduleWord w t ht) := by
    simp [ht.2]
  rw [List.take_add_one, hn, Vector.toList_set, List.take_set_of_le le_rfl]
  rfl

/-- With `n` schedule words to compute, `n` turns of the engine compute them and end in CINIT, by induction on `n` (R146). -/
theorem runSteps_sched (n : Nat) (hi : s.inputs = []) (h16 : 16 ≤ s.t.toNat) (hn : s.t.toNat + n = 64)
    (hp : s.phase = if s.t.toNat = 64 then Phase.cinit.code else Phase.sched.code) :
    ∃ t, runSteps n s = .next t ∧ t.phase = Phase.cinit.code ∧
      t.w.toList = refExtend n (s.w.toList.take s.t.toNat) ∧ t.h = s.h ∧ t.blk = s.blk ∧ t.nblk = s.nblk := by
  induction n generalizing s with
  | zero =>
    have h64 : s.t.toNat = 64 := hn
    refine ⟨s, rfl, by rw [hp, if_pos h64], ?_, rfl, rfl, rfl⟩
    rw [h64, refExtend, List.take_of_length_le (by simp)]
  | succ n ih =>
    have ht : 16 ≤ s.t.toNat ∧ s.t.toNat < 64 := ⟨h16, by omega⟩
    have hs : step s = execEsSched s := by
      rw [step_of_nil hi, hp, if_neg (by omega), decodeEngine_code]
      rfl
    have htn := toNat_schedStep_t ht
    rw [runSteps_succ_next (hs.trans (execEsSched_of_inRange ht)), refExtend_succ_take s.w n ht, ← htn]
    exact ih hi (by omega) (by omega) (by rw [htn]; rfl)

/-- Settles O51: at T = 16 there are 48 words to compute (`runSteps_sched`). -/
theorem schedPhaseComputesTheSchedule : Obligations.SchedPhaseComputesTheSchedule := by
  intro s hp ht hi
  have h16 : s.t.toNat = 16 := congrArg BitVec.toNat ht
  have h := runSteps_sched 48 hi (by omega) (by omega) (by rw [h16]; exact hp)
  rwa [h16] at h

end Sys2Proof.Machine
end

section
/-! PROOFS. The compressor (42_compressor.md): a job over a message under every event (O53), Ch and Maj bit by bit (O38), the
ROMs as roots of primes (O39), the CINIT, ROUND and FOLD steps (O30, O31, O32), and the compression function that 66 of them
perform (O52). -/

namespace Sys2Proof.Machine

variable {s : State}

/-! ## A job under every event -/

/-- Settles O53: the engine advances the job, a host transaction leaves it as it is, and the reset input ends it in IDLE. -/
theorem everyEventAdvancesTheJob : Obligations.EveryEventAdvancesTheJob := by
  intro msg s hc h
  obtain he | ⟨x, es, hi⟩ | ⟨es, hi⟩ := s.nextEvent_cases
  · obtain ⟨t, ht, -, -, hadv⟩ := h.step_of_engineNext hc he
    exact ⟨t, ht, hadv.job.imp_right .inl⟩
  · obtain ⟨t, ht, -, -, hjob, -⟩ := h.step_of_host hi
    exact ⟨t, ht, .inl hjob⟩
  · exact ⟨_, step_of_reset hi, .inr (.inr ⟨by rw [hi]; rfl, rfl⟩)⟩

/-! ## Choice and majority -/

/-- Ch chooses by the bit of its first argument (R165). -/
theorem getLsbD_ch (x y z : Word) {i : Nat} (hi : i < 32) :
    (ch x y z).getLsbD i = if x.getLsbD i then y.getLsbD i else z.getLsbD i := by
  rw [ch, BitVec.getLsbD_xor, BitVec.getLsbD_and, BitVec.getLsbD_and, BitVec.getLsbD_not]
  cases x.getLsbD i <;> simp [hi]

/-- Maj is set where at least two of its arguments are (R166). -/
theorem getLsbD_maj (x y z : Word) (i : Nat) :
    (maj x y z).getLsbD i = true ↔ 2 ≤ (x.getLsbD i).toNat + (y.getLsbD i).toNat + (z.getLsbD i).toNat := by
  have majority : ∀ a b c : Bool, ((a && b) ^^ (a && c) ^^ (b && c)) = true ↔ 2 ≤ a.toNat + b.toNat + c.toNat := by decide
  simp only [maj, BitVec.getLsbD_xor, BitVec.getLsbD_and, majority]

/-- Settles O38: one law for each function. -/
theorem choiceAndMajorityBitByBit : Obligations.ChoiceAndMajorityBitByBit :=
  fun x y z i hi => ⟨getLsbD_ch x y z hi, getLsbD_maj x y z i⟩

/-! ## The ROMs -/

/-- Below 18 * 18 a number is prime when no smaller number below 18 divides it. -/
theorem prime_iff_of_lt {p : Nat} (hp : p < 18 * 18) :
    Nat.Prime p ↔ 2 ≤ p ∧ ∀ m < 18, 2 ≤ m → m < p → ¬ m ∣ p := by
  constructor
  · intro h
    exact ⟨h.two_le, fun m _ => (Nat.prime_def_lt'.mp h).2 m⟩
  · rintro ⟨h2, hdvd⟩
    refine Nat.prime_def_le_sqrt.mpr ⟨h2, fun m hm hsqrt => ?_⟩
    have h18 : m < 18 := hsqrt.trans_lt (Nat.sqrt_lt.mpr hp)
    exact hdvd m h18 hm (hsqrt.trans_lt (Nat.sqrt_lt_self h2))

/-- The list holds the numbers up to 311 that pass trial division (R161, R162). -/
theorem firstPrimes_eq_filter :
    firstPrimes = (List.range 312).filter fun p => 2 ≤ p ∧ ∀ m < 18, 2 ≤ m → m < p → ¬ m ∣ p := by
  decide +kernel

theorem mem_firstPrimes_iff (p : Nat) : p ∈ firstPrimes ↔ Nat.Prime p ∧ p ≤ 311 := by
  rw [firstPrimes_eq_filter, List.mem_filter, List.mem_range, decide_eq_true_iff]
  constructor
  · rintro ⟨hlt, htrial⟩
    exact ⟨(prime_iff_of_lt (by omega)).mpr htrial, by omega⟩
  · rintro ⟨hprime, hle⟩
    exact ⟨by omega, (prime_iff_of_lt (by omega)).mp hprime⟩

/-- The integer `n`-th root of `x` has the low word `k`, and `c` above it. -/
abbrev IsRootWord (n x : Nat) (k : Word) (c : Nat) : Prop :=
  (c * 2 ^ 32 + k.toNat) ^ n ≤ x ∧ x < (c * 2 ^ 32 + k.toNat + 1) ^ n

theorem IsRootWord.exists_root {n x c : Nat} {k : Word} (h : IsRootWord n x k c) :
    ∃ r, r ^ n ≤ x ∧ x < (r + 1) ^ n ∧ k.toNat = r % 2 ^ 32 :=
  ⟨c * 2 ^ 32 + k.toNat, h.1, h.2, by omega⟩

/-- The square root of each of the first 8 primes has a whole part below 5, and its IV word after it (R161). -/
theorem ivRom_isRootWord : ∀ i : Fin 8, ∃ p ∈ firstPrimes[i.val]?, ∃ c < 5, IsRootWord 2 (p * 2 ^ 64) ivRom[i] c := by
  decide

/-- The cube root of each of the first 64 primes has a whole part below 7, and its round constant after it (R162). -/
theorem kRom_isRootWord : ∀ t : Fin 64, ∃ p ∈ firstPrimes[t.val]?, ∃ c < 7, IsRootWord 3 (p * 2 ^ 96) kRom[t] c := by
  decide

/-- Settles O39: the primes by trial division, and each ROM word as the low word of its root. -/
theorem romsAreFractionsOfRoots : Obligations.RomsAreFractionsOfRoots := by
  refine ⟨mem_firstPrimes_iff, by decide, fun i hi => ?_, fun t ht => ?_⟩
  · obtain ⟨p, hp, c, -, hroot⟩ := ivRom_isRootWord ⟨i, hi⟩
    obtain ⟨r, hle, hlt, hr⟩ := hroot.exists_root
    exact ⟨p, r, hp, sq r ▸ hle, sq (r + 1) ▸ hlt, hr⟩
  · obtain ⟨p, hp, c, -, hroot⟩ := kRom_isRootWord ⟨t, ht⟩
    obtain ⟨r, hle, hlt, hr⟩ := hroot.exists_root
    exact ⟨p, r, hp, hle, hlt, hr⟩

/-! ## The CINIT, ROUND and FOLD steps -/

/-- The state CINIT leaves (R170). -/
def cinitStep (s : State) : State := { s with v := s.h, t := 0, phase := Phase.round.code }

/-- The state ROUND leaves with T in range: round T over V, T + 1, and FOLD after round 63 (R171). -/
def roundStep (s : State) (ht : s.t.toNat < 64) : State :=
  countStep .round .fold { s with v := roundVars s.v kRom[s.t.toNat] s.w[s.t.toNat] }

/-- The state FOLD leaves (R172). -/
def foldStep (s : State) : State :=
  { s with
    h := foldVars s.h s.v
    blk := s.blk + 1
    phase := if s.blk.toNat + 1 = s.nblk.toNat then Phase.done.code else Phase.load.code }

theorem exec_esCinit (s : State) : exec .esCinit s = .next (cinitStep s) := rfl

theorem exec_esRound_of_inRange (ht : s.t.toNat < 64) : exec .esRound s = .next (roundStep s ht) := dif_pos ht

theorem exec_esFold (s : State) : exec .esFold s = .next (foldStep s) := rfl

theorem toNat_roundStep_t (ht : s.t.toNat < 64) : (roundStep s ht).t.toNat = s.t.toNat + 1 :=
  toNat_countStep_t .round .fold ht

theorem roundStep_phase (ht : s.t.toNat < 64) :
    (roundStep s ht).phase = if s.t.toNat + 1 = 64 then Phase.fold.code else Phase.round.code := rfl

theorem foldStep_phase (s : State) :
    (foldStep s).phase = if s.blk.toNat + 1 = s.nblk.toNat then Phase.done.code else Phase.load.code := rfl

/-- Settles O30: the fields of `cinitStep`. -/
theorem cinitStepCopiesTheHash : Obligations.CinitStepCopiesTheHash :=
  fun s => ⟨cinitStep s, exec_esCinit s, fun _ _ => rfl, rfl, rfl, rfl, rfl, rfl, rfl, rfl, ⟨rfl, rfl, fun _ => rfl⟩,
    rfl, rfl, rfl⟩

/-- Settles O31: the variables are those of `roundVars`, and T + 1 = 64 decides the phase. -/
theorem roundStepRotatesTheVariables : Obligations.RoundStepRotatesTheVariables := by
  intro s ht
  refine ⟨roundStep s ht, kRom[s.t.toNat], _, _, exec_esRound_of_inRange ht, getElem?_kList ht, rfl, rfl,
    rfl, rfl, rfl, rfl, rfl, rfl, rfl, rfl, toNat_roundStep_t ht, fun h => ?_, fun h => ?_,
    rfl, rfl, rfl, rfl, rfl, ⟨rfl, rfl, fun _ => rfl⟩, rfl, rfl, rfl⟩
  · exact (roundStep_phase ht).trans (if_pos (by omega))
  · exact (roundStep_phase ht).trans (if_neg (by omega))

/-- Settles O32: word by word the fold is `BitVec` addition, and BLK + 1 = NBLK decides the phase. -/
theorem foldStepAddsAndAdvances : Obligations.FoldStepAddsAndAdvances := by
  intro s
  refine ⟨foldStep s, exec_esFold s, fun i hi => ?_, BitVec.toNat_add _ _, fun h => ?_, fun h => ?_,
    rfl, rfl, rfl, rfl, rfl, ⟨rfl, rfl, fun _ => rfl⟩, rfl, rfl, rfl⟩
  · exact (congrArg BitVec.toNat (getElem_foldVars s.h s.v i hi)).trans (BitVec.toNat_add _ _)
  · exact (foldStep_phase s).trans (if_pos h)
  · exact (foldStep_phase s).trans (if_neg h)

/-! ## The compression function -/

/-- Round T over V is the round of R160 with the constant and the schedule word of index T. -/
theorem toVars_roundStep {x : HashVars} (ht : s.t.toNat < 64) (hv : toVars s.v = refRounds s.t.toNat x s.w.toList) :
    toVars (roundStep s ht).v = refRounds (s.t.toNat + 1) x s.w.toList := by
  have hw : s.w.toList[s.t.toNat]? = some s.w[s.t.toNat] := by simp [ht]
  rw [refRounds_succ ht hw, ← hv]
  rfl

/-- With `n` rounds to do, `n` turns of the engine do them and end in FOLD, by induction on `n` (R171). -/
theorem runSteps_round {x : HashVars} (n : Nat) (hi : s.inputs = []) (hn : s.t.toNat + n = 64)
    (hp : s.phase = if s.t.toNat = 64 then Phase.fold.code else Phase.round.code)
    (hv : toVars s.v = refRounds s.t.toNat x s.w.toList) :
    ∃ t, runSteps n s = .next t ∧ t.phase = Phase.fold.code ∧ t.inputs = [] ∧
      toVars t.v = refRounds 64 x s.w.toList ∧ t.h = s.h ∧ t.blk = s.blk ∧ t.nblk = s.nblk := by
  induction n generalizing s with
  | zero =>
    have h64 : s.t.toNat = 64 := hn
    exact ⟨s, rfl, by rw [hp, if_pos h64], hi, by rw [hv, h64], rfl, rfl, rfl⟩
  | succ n ih =>
    have ht : s.t.toNat < 64 := by omega
    have hs : step s = .next (roundStep s ht) := by
      rw [step_of_nil hi, hp, if_neg (by omega), decodeEngine_code]
      exact exec_esRound_of_inRange ht
    have htn := toNat_roundStep_t ht
    rw [runSteps_succ_next hs]
    exact ih hi (by omega) (by rw [htn]; rfl) (by rw [htn]; exact toVars_roundStep ht hv)

/-- Settles O52: CINIT sets the variables of round 0, `runSteps_round` does the rounds, and FOLD adds. -/
theorem compressorPerformsTheCompressionFunction : Obligations.CompressorPerformsTheCompressionFunction := by
  intro s hp hi
  have hcinit : step s = .next (cinitStep s) := by
    rw [step_of_nil hi, hp]
    exact exec_esCinit s
  obtain ⟨u, hrun, hup, hui, huv, huh, hub, hun⟩ :=
    runSteps_round (s := cinitStep s) (x := toVars s.h) 64 hi rfl rfl rfl
  have hfold : step u = .next (foldStep u) := by
    rw [step_of_nil hui, hup, decodeEngine_code]
    exact exec_esFold u
  refine ⟨foldStep u, ?_, ?_, ?_, congrArg (· + 1) hub, hun⟩
  · calc runSteps 66 s = runSteps 65 (cinitStep s) := runSteps_succ_next hcinit
      _ = runSteps 1 u := runSteps_add (m := 64) (n := 1) hrun
      _ = .next (foldStep u) := runSteps_succ_next hfold
  · show toVars (foldVars u.h u.v) = _
    rw [toVars_foldVars, huv, huh]
    rfl
  · rw [foldStep_phase]
    split_ifs
    · exact .inl rfl
    · exact .inr rfl

end Sys2Proof.Machine
end

section
/-! PROOFS. The digest and the sequencing (43_digest.md): PHASE and ERR move by the transition table (O41), the quiescent
phases (O33), the digest bytes (O50), and the steps of a job, counted (O54) and run by the engine alone (O55). -/

namespace Sys2Proof.Machine

variable {msg : List Byte} {s t : State}

/-! ## The rows of the transition table (R190; 10_state.md R29) -/

/-- PAD's row for a length that no 64-bit bit count holds (40_padder.md R110). -/
theorem tableEngine_of_inputTooLarge (hp : s.phase = Phase.pad.code) (h : 2 ^ 61 ≤ s.msgLen.toNat) :
    tableEnginePhase s = Phase.error.code ∧ tableEngineErr s = ErrCode.inputTooLarge.code :=
  ⟨(if_pos hp).trans (if_pos (.inl h)), (if_pos hp).trans (if_pos h)⟩

/-- PAD's row for a message that the buffer does not hold (R110). -/
theorem tableEngine_of_bufferOverrun (hp : s.phase = Phase.pad.code) (h : s.msgLen.toNat < 2 ^ 61)
    (hc : s.msgCap < s.msgLen.toNat) :
    tableEnginePhase s = Phase.error.code ∧ tableEngineErr s = ErrCode.bufferOverrun.code :=
  ⟨(if_pos hp).trans (if_pos (.inr hc)), (if_pos hp).trans ((if_neg h.not_ge).trans (if_pos hc))⟩

/-- PAD's row for a message that fits (R110). -/
theorem tableEngine_of_fits (hp : s.phase = Phase.pad.code) (h : s.msgLen.toNat < 2 ^ 61)
    (hc : s.msgLen.toNat ≤ s.msgCap) : tableEnginePhase s = Phase.load.code ∧ tableEngineErr s = s.err :=
  ⟨(if_pos hp).trans (if_neg (not_or_intro h.not_ge hc.not_gt)),
    (if_pos hp).trans ((if_neg h.not_ge).trans (if_neg hc.not_gt))⟩

/-- The engine has no row in a quiescent phase (R193). -/
theorem tableEngine_of_quiescent (hp : s.phase = 0 ∨ s.phase = 7 ∨ s.phase = 8) :
    tableEnginePhase s = s.phase ∧ tableEngineErr s = s.err := by
  obtain hp | hp | hp := hp <;> simp [tableEnginePhase, tableEngineErr, hp, Phase.code]

/-- A write that is no command, or one that is dropped or NOP, is in no row of the table. -/
theorem tableHost_of_no_command {word : TxWord} (h : TxWord.addr word = 0 → s.busy = true ∨ TxWord.data word = 0) :
    tableHostPhase s (.write word) = s.phase ∧ tableHostErr s (.write word) = s.err := by
  by_cases hcmd : TxWord.addr word = 0 ∧ s.busy = false
  · have hd : TxWord.data word = 0 := (h hcmd.1).resolve_left (by simp [hcmd.2])
    simp [tableHostPhase, tableHostErr, hd]
  · exact ⟨if_neg hcmd, if_neg hcmd⟩

/-- The row of an accepted START (44_host_interface.md R203). -/
theorem tableHost_of_start {word : TxWord} (hb : s.busy = false) (ha : TxWord.addr word = 0)
    (hd : TxWord.data word = 1) :
    tableHostPhase s (.write word) = Phase.pad.code ∧ tableHostErr s (.write word) = ErrCode.noError.code :=
  ⟨(if_pos ⟨ha, hb⟩).trans (if_pos hd), (if_pos ⟨ha, hb⟩).trans (if_pos hd)⟩

/-- The row of an illegal command (R205). -/
theorem tableHost_of_illegal {word : TxWord} (hb : s.busy = false) (ha : TxWord.addr word = 0)
    (h0 : TxWord.data word ≠ 0) (h1 : TxWord.data word ≠ 1) :
    tableHostPhase s (.write word) = Phase.error.code ∧ tableHostErr s (.write word) = ErrCode.badCommand.code :=
  ⟨(if_pos ⟨ha, hb⟩).trans ((if_neg h1).trans (if_neg h0)), (if_pos ⟨ha, hb⟩).trans ((if_neg h1).trans (if_neg h0))⟩

/-! ## PHASE and ERR along a step -/

/-- An engine step moves PHASE and ERR by its row. From LOAD on no row writes ERR, and T + 1 = 64 is the T = 63 of the table. -/
theorem exec_decodeEngine_follows_table (h : exec (decodeEngine s.phase) s = .next t) :
    t.phase = tableEnginePhase s ∧ t.err = tableEngineErr s := by
  rcases exec_decodeEngine_cases h with ⟨hp, rfl⟩ | ⟨hp, hl, rfl⟩ | ⟨hp, hl, hc, rfl⟩ | ⟨hp, hl, hc, rfl⟩ |
    ⟨hp, -, _, -, rfl⟩ | ⟨hp, -, rfl⟩ | ⟨hp, rfl⟩ | ⟨hp, -, rfl⟩ | ⟨hp, rfl⟩
  · exact (tableEngine_of_quiescent hp).imp Eq.symm Eq.symm
  · exact (tableEngine_of_inputTooLarge hp hl).imp Eq.symm Eq.symm
  · exact (tableEngine_of_bufferOverrun hp hl hc).imp Eq.symm Eq.symm
  · exact (tableEngine_of_fits hp hl hc).imp Eq.symm Eq.symm
  all_goals simp [tableEnginePhase, tableEngineErr, hp, Phase.code]

/-- A host transaction moves PHASE and ERR by its row: a command does, and nothing else. -/
theorem step_host_follows_table {x : Transaction} {es : List Event} (hi : s.inputs = .host x :: es)
    (h : step s = .next t) : t.phase = tableHostPhase s x ∧ t.err = tableHostErr s x := by
  obtain ⟨t', ht', hcases⟩ := step_host_cases hi (phase_le_of_host_next hi h)
  obtain rfl := Host.Outcome.next.inj (ht'.symm.trans h)
  rcases hcases with ⟨_, rfl, _, _, rfl⟩ | ⟨_, rfl, rfl, hn⟩ | ⟨_, rfl, hb, ha, hd, rfl⟩ |
    ⟨_, rfl, hb, ha, h0, h1, rfl⟩ | ⟨_, rfl, -, ha, _, rfl⟩ | ⟨_, rfl, -, ha, _, -, rfl⟩
  · exact ⟨rfl, rfl⟩
  · exact (tableHost_of_no_command hn).imp Eq.symm Eq.symm
  · exact (tableHost_of_start hb ha hd).imp Eq.symm Eq.symm
  · exact (tableHost_of_illegal hb ha h0 h1).imp Eq.symm Eq.symm
  all_goals exact (tableHost_of_no_command fun h0 => absurd h0 ha).imp Eq.symm Eq.symm

theorem table_of_engineNext (he : s.engineNext) : tablePhase s = tableEnginePhase s ∧ tableErr s = tableEngineErr s := by
  obtain hi | ⟨es, hi⟩ := he <;> simp [tablePhase, tableErr, hi]

/-- Settles O41: one law each for the engine's turn and a host transaction; the reset input writes IDLE and no error. -/
theorem phaseAndErrMoveOnlyByTheTable : Obligations.PhaseAndErrMoveOnlyByTheTable := by
  intro s t h
  obtain he | ⟨x, es, hi⟩ | ⟨es, hi⟩ := s.nextEvent_cases
  · rw [step_of_engineNext he] at h
    obtain ⟨hphase, herr⟩ := table_of_engineNext he
    rw [hphase, herr]
    exact exec_decodeEngine_follows_table (s := s.withInputs s.restInputs) h
  · have hrow := step_host_follows_table hi h
    simpa only [tablePhase, tableErr, hi] using hrow
  · obtain rfl := Host.Outcome.next.inj ((step_of_reset hi).symm.trans h)
    simp only [tablePhase, tableErr, hi]
    exact ⟨rfl, rfl⟩

/-! ## The quiescent phases -/

/-- The codes 0, 7 and 8 select the three engine steps without effect (R193; 30_encoding.md R88). -/
theorem exec_decodeEngine_of_quiescent {p : BitVec 4} (hp : p = 0 ∨ p = 7 ∨ p = 8) (u : State) :
    exec (decodeEngine p) u = .next u := by
  obtain rfl | rfl | rfl := hp <;> rfl

/-- Settles O33: the three meanings are `noEffect`, and the engine's turn runs one of them with its event consumed. -/
theorem quiescentPhasesHaveNoStep : Obligations.QuiescentPhasesHaveNoStep :=
  fun _ => ⟨rfl, rfl, rfl, fun hp he => (step_of_engineNext he).trans (exec_decodeEngine_of_quiescent hp _)⟩

/-! ## The digest bytes -/

/-- In DONE DIGESTi is H[i] (44_host_interface.md R213). -/
theorem digestWord_of_done (hp : s.phase = Phase.done.code) {i : Nat} (hi : i < 8) :
    digestWord s (BitVec.ofNat 3 i) = s.h[i] := by
  have hi' : (BitVec.ofNat 3 i).toNat = i := Nat.mod_eq_of_lt hi
  simp only [digestWord, if_pos hp, hi']

/-- Settles O50: digest byte n is a byte of DIGESTi with i = n / 4, which is H[i] in DONE. -/
theorem digestBytesAreBigEndianWords : Obligations.DigestBytesAreBigEndianWords := by
  refine fun s hp => ⟨by simp [digestBytes], fun n hn => ⟨digestByte s n, by simp [digestBytes, hn], ?_⟩⟩
  rw [digestByte, digestWord_of_done hp (by omega)]
  exact toNat_byteOf (n % 4) (s.h[n / 4]'(by omega))

/-! ## The steps of a job -/

/-- Settles O54: the engine's turn and a host transaction, and the two ends of the count. -/
theorem engineStepsCountDownTheJob : Obligations.EngineStepsCountDownTheJob := by
  intro msg s t hc h ht
  refine ⟨fun he => ?_, fun x es hi => ?_, fun hp => ?_, stepsLeft_of_done⟩
  · obtain ⟨t', ht', -, -, hadv⟩ := h.step_of_engineNext hc he
    obtain rfl := Host.Outcome.next.inj (ht'.symm.trans ht)
    exact hadv.count
  · obtain ⟨t', ht', -, -, -, hcount⟩ := h.step_of_host hi
    obtain rfl := Host.Outcome.next.inj (ht'.symm.trans ht)
    exact hcount
  · rw [stepsLeft_of_pad hp, h.message.length]
    rfl

/-- With the engine alone acting a job ends with its hash after exactly the steps it has left, by induction on them. -/
theorem State.Hashing.run_of_silentHost (h : s.Hashing msg) (hc : Config.legalMsgCap s.msgCap) (hi : s.inputs = []) :
    (∃ t, runSteps s.stepsLeft s = .next t ∧ t.Hashed msg) ∧
    ∀ n, n < s.stepsLeft → ∃ t, runSteps n s = .next t ∧ t.busy = true := by
  induction hk : s.stepsLeft generalizing s with
  | zero =>
    obtain ⟨t, -, -, -, hadv⟩ := h.step_of_engineNext hc (.inl hi)
    have hcount := hadv.count
    omega
  | succ k ih =>
    obtain ⟨t, ht, hcap, hin, hadv⟩ := h.step_of_engineNext hc (.inl hi)
    have hleft : t.stepsLeft = k := Nat.succ.inj (hadv.count.trans hk)
    have hrest : (∃ u, runSteps k t = .next u ∧ u.Hashed msg) ∧
        ∀ n, n < k → ∃ u, runSteps n t = .next u ∧ u.busy = true := by
      obtain hjob | hend := hadv.job
      · exact ih hjob (by rwa [hcap]) (by rw [hin, State.restInputs, hi, List.tail_nil]) hleft
      · obtain rfl : k = 0 := hleft.symm.trans (stepsLeft_of_done hend.phase)
        exact ⟨⟨t, rfl, hend⟩, fun n hn => absurd hn n.not_lt_zero⟩
    obtain ⟨hend, hbusy⟩ := hrest
    refine ⟨by rwa [runSteps_succ_next ht], fun n hn => ?_⟩
    cases n with
    | zero => exact ⟨s, rfl, h.busy⟩
    | succ n =>
      rw [runSteps_succ_next ht]
      exact hbusy n (by omega)

/-- Settles O55: PAD with the message written is a job with 1 + 115 * NBLK steps left. -/
theorem jobDeliversTheDigest : Obligations.JobDeliversTheDigest := by
  intro msg s hc hm hp hi
  have hleft : s.stepsLeft = 1 + 115 * ((msg.length + 72) / 64) := by
    rw [stepsLeft_of_pad hp, hm.length]
    rfl
  obtain ⟨⟨t, ht, hend⟩, hbusy⟩ := State.Hashing.run_of_silentHost ⟨hm, .inl hp⟩ hc hi
  rw [hleft] at ht hbusy
  exact ⟨⟨t, ht, hend.phase, hend.digestBytes_eq⟩, hbusy⟩

end Sys2Proof.Machine
end

section
/-! PROOFS. The host interface (44_host_interface.md): the commands (O8, O9), the writes of the registers and the window (O11,
O13, O14), and the reads of STATUS, DIGESTi and MSG_LEN (O16, O17, O18). -/

namespace Sys2Proof.Machine

variable {s : State}

/-! ## Writes that are dropped while busy -/

theorem next_unlessBusy_of_busy (f : State → State) (h : s.busy = true) :
    (.next (unlessBusy f s) : Host.Outcome State Fault Refusal) = .next s :=
  congrArg Host.Outcome.next (unlessBusy_of_busy f h)

theorem next_unlessBusy_of_not_busy (f : State → State) (h : s.busy = false) :
    (.next (unlessBusy f s) : Host.Outcome State Fault Refusal) = .next (f s) :=
  congrArg Host.Outcome.next (unlessBusy_of_not_busy f h)

/-! ## The read-only registers -/

/-- The offsets of R210 are those of STATUS and of the DIGEST registers (R83 cases 3 and 6). -/
theorem classify_readOnly {cap : Nat} {a : Word} (h : a.toNat = 4 ∨ ∃ i, i < 8 ∧ a.toNat = 0x20 + 4 * i) :
    classify cap a = .status ∨ ∃ i, classify cap a = .digest i := by
  obtain h4 | ⟨i, hi, hd⟩ := h
  · obtain rfl : a = 4 := BitVec.eq_of_toNat_eq h4
    exact .inl (classify_status cap)
  · obtain ⟨j, hj, -⟩ := classify_digest (cap := cap) (a := a) (by omega) (by omega) (by omega)
    exact .inr ⟨j, hj⟩

/-- Settles O11: the row of either target has the meaning `noEffect`. -/
theorem writesToReadOnlyRegistersDoNothing : Obligations.WritesToReadOnlyRegistersDoNothing := by
  intro s word es _ hp hi ha
  rw [step_of_host hi hp, decodeHost, decodeWrite_eq_writeRow]
  obtain h | ⟨i, h⟩ := classify_readOnly ha
  · rw [h]
    rfl
  · rw [h]
    rfl

/-! ## MSG_LEN and the window -/

theorem toNat_msgLenLo (s : State) : (msgLenLo s).toNat = s.msgLen.toNat % 2 ^ 32 := by
  rw [msgLenLo, toNat_field, Nat.pow_zero, Nat.div_one]

theorem toNat_msgLenHi (s : State) : (msgLenHi s).toNat = s.msgLen.toNat / 2 ^ 32 := by
  have := s.msgLen.isLt
  rw [msgLenHi, toNat_field]
  omega

theorem toNat_setMsgLenLo (s : State) (d : Word) :
    (setMsgLenLo d s).msgLen.toNat = 2 ^ 32 * (s.msgLen.toNat / 2 ^ 32) + d.toNat := by
  rw [setMsgLenLo_msgLen, toNat_append_eq, toNat_msgLenHi, Nat.mul_comm]

theorem toNat_setMsgLenHi (s : State) (d : Word) :
    (setMsgLenHi d s).msgLen.toNat = 2 ^ 32 * d.toNat + s.msgLen.toNat % 2 ^ 32 := by
  rw [setMsgLenHi_msgLen, toNat_append_eq, toNat_msgLenLo, Nat.mul_comm]

/-- A new MSG_LEN leaves every other register and the message bytes (R207, R208). -/
theorem State.withMsgLen_frame (s : State) (len : BitVec 64) :
    (s.withMsgLen len).msgCap = s.msgCap ∧ (∀ j, (s.withMsgLen len).mem.read j = s.mem.read j) ∧
    s.SameEngine (s.withMsgLen len) ∧ s.SameControl (s.withMsgLen len) ∧ s.SameHostSide (s.withMsgLen len) :=
  ⟨rfl, fun _ => rfl, ⟨rfl, rfl, rfl, rfl, rfl, rfl⟩, ⟨rfl, rfl⟩, ⟨rfl, rfl, rfl⟩⟩

/-- Settles O13: while not busy the new MSG_LEN is `setMsgLenLo` or `setMsgLenHi`. -/
theorem lengthWritesSetTheirHalf : Obligations.LengthWritesSetTheirHalf :=
  fun s d =>
    ⟨fun hb => ⟨next_unlessBusy_of_busy _ hb, next_unlessBusy_of_busy _ hb⟩, fun hb =>
      ⟨⟨_, next_unlessBusy_of_not_busy _ hb, toNat_setMsgLenLo s d, s.withMsgLen_frame _⟩,
        ⟨_, next_unlessBusy_of_not_busy _ hb, toNat_setMsgLenHi s d, s.withMsgLen_frame _⟩⟩⟩

/-- Lane `i` of a written window word (R54). -/
theorem Memory.read_writeWord_lane (m : Memory) (k : Nat) (d : Word) {i : Nat} (hi : i < 4) :
    Memory.read (m.writeWord k d) (4 * k + i) = some (byteOf i d) := by
  rw [Memory.read_writeWord, if_pos (by omega), Nat.add_sub_cancel_left]

theorem Memory.read_writeWord_outside (m : Memory) (k : Nat) (d : Word) {j : Nat} (hj : j < 4 * k ∨ 4 * k + 4 ≤ j) :
    Memory.read (m.writeWord k d) j = m.read j := by
  rw [Memory.read_writeWord, if_neg (by omega)]

/-- Settles O14: the four lanes and the other bytes of `Memory.writeWord`; `withMem` leaves the rest. -/
theorem windowWritesStoreBigEndianLanes : Obligations.WindowWritesStoreBigEndianLanes := by
  intro s k d _
  have lane {i : Nat} (hi : i < 4) := s.mem.read_writeWord_lane k.toNat d hi
  exact ⟨next_unlessBusy_of_busy _, fun hb =>
    ⟨s.withMem (s.mem.writeWord k.toNat d), next_unlessBusy_of_not_busy _ hb,
      lane (i := 0) (by decide), lane (i := 1) (by decide), lane (i := 2) (by decide), lane (i := 3) (by decide),
      fun _ => s.mem.read_writeWord_outside k.toNat d,
      rfl, rfl, ⟨rfl, rfl, rfl, rfl, rfl, rfl⟩, ⟨rfl, rfl⟩, ⟨rfl, rfl, rfl⟩⟩⟩

/-! ## Reads -/

/-- A read that returns `x` leaves all else (R57). -/
theorem readReturns_frame (x : Word) (s : State) :
    s.SameEngine (readReturns x s) ∧ s.SameMessage (readReturns x s) ∧ s.SameControl (readReturns x s) ∧
    (readReturns x s).inputs = s.inputs ∧ (readReturns x s).draws = s.draws :=
  ⟨⟨rfl, rfl, rfl, rfl, rfl, rfl⟩, ⟨rfl, rfl, fun _ => rfl⟩, ⟨rfl, rfl⟩, rfl, rfl⟩

/-- BUSY as a range of PHASE (30_encoding.md R86). -/
theorem State.busy_iff (s : State) : s.busy = true ↔ 1 ≤ s.phase.toNat ∧ s.phase.toNat ≤ 6 := by
  unfold State.busy
  generalize s.phase = p
  revert p
  decide

/-- STATUS as the sum of its fields (R86). -/
theorem toNat_statusWord (s : State) :
    (statusWord s).toNat = 256 * s.err.toNat + 16 * s.busy.toNat + s.phase.toNat := by
  have herr := s.err.isLt
  have hphase := s.phase.isLt
  have hbusy := s.busy.toNat_lt
  have hzero : (0 : BitVec 3).toNat = 0 := rfl
  rw [statusWord, BitVec.toNat_setWidth, toNat_append_eq, toNat_append_eq, toNat_append_eq, BitVec.toNat_ofBool, hzero]
  omega

/-- Settles O16: the fields of `statusWord`, with BUSY by `State.busy_iff`. -/
theorem statusReadReturnsItsFields : Obligations.StatusReadReturnsItsFields := by
  intro s
  refine ⟨_, rfl, ?_, readReturns_frame (statusWord s) s⟩
  rw [readReturns_rdata, toNat_statusWord]
  simp only [← State.busy_iff]
  cases s.busy <;> rfl

/-- Settles O17: the two branches of `digestWord`. -/
theorem digestReadsAreGatedByDone : Obligations.DigestReadsAreGatedByDone :=
  fun s _ =>
    ⟨fun h => congrArg (fun x => Host.Outcome.next (readReturns x s)) (if_pos h),
      fun h => congrArg (fun x => Host.Outcome.next (readReturns x s)) (if_neg h)⟩

/-- Settles O18: the words read are `msgLenLo` and `msgLenHi`. -/
theorem lengthReadsReturnTheirHalf : Obligations.LengthReadsReturnTheirHalf :=
  fun s => ⟨⟨_, rfl, toNat_msgLenLo s, readReturns_frame _ s⟩, ⟨_, rfl, toNat_msgLenHi s, readReturns_frame _ s⟩⟩

/-! ## Commands -/

/-- Settles O9: NOP and a dropped command are `noEffect`; START is `beginJob` and an illegal command is `raiseError`, unless
busy. -/
theorem commandsComplete : Obligations.CommandsComplete :=
  fun _ _ =>
    ⟨rfl, next_unlessBusy_of_not_busy beginJob, fun hb _ _ => next_unlessBusy_of_not_busy (raiseError .badCommand) hb,
      fun hb => ⟨rfl, next_unlessBusy_of_busy _ hb, next_unlessBusy_of_busy _ hb⟩⟩

/-- A write of offset 0 runs the command that its data is (R201). -/
theorem step_of_command {word : TxWord} {es : List Event} (hp : s.phase.toNat ≤ 8)
    (hi : s.inputs = .host (.write word) :: es) (ha : TxWord.addr word = 0) :
    step s = exec (decodeCommand s.busy (TxWord.data word)) (s.withInputs es) := by
  rw [step_of_host hi hp, decodeHost, decodeWrite_eq_writeRow, classify_eq_cmd.mpr ha]
  rfl

/-- Settles O8: each branch of `decodeCommand` gives one of the four commands of O9. -/
theorem commandWritesFollowTheDispatch : Obligations.CommandWritesFollowTheDispatch := by
  intro s word es hp hi ha
  obtain ⟨hnop, hstart, hillegal, hbusy⟩ := commandsComplete (s.withInputs es) (TxWord.data word)
  rw [step_of_command hp hi ha]
  refine ⟨fun hb => ?_, fun hb hd => ?_, fun hb hd => ?_, fun hb h0 h1 => ?_⟩
  · rw [hb]
    exact (hbusy hb).1
  · rw [hb, hd]
    exact hnop
  · rw [hb, hd]
    exact hstart hb
  · rw [hb, decodeCommand_illegal h0 h1]
    exact hillegal hb h0 h1

end Sys2Proof.Machine
end


section
/-! PROOFS. Exceptions (60_exceptions.md): the counters out of range (O35) and the error entry (O40). -/

namespace Sys2Proof.Machine

variable {s : State}

/-! ## Counters out of range -/

theorem execEsLoad_of_outOfRange (h : s.nblk.toNat ≤ s.blk.toNat) : execEsLoad s = .fault .invariant :=
  if_neg (Nat.not_lt.mpr h)

theorem execEsSched_of_outOfRange (h : s.t.toNat < 16 ∨ 64 ≤ s.t.toNat) : execEsSched s = .fault .invariant :=
  dif_neg (by omega)

theorem execEsRound_of_outOfRange (h : 64 ≤ s.t.toNat) : execEsRound s = .fault .invariant :=
  dif_neg (Nat.not_lt.mpr h)

/-- Settles O35: each of the three meanings takes the branch in which its guard on BLK or T fails. -/
theorem countersOutOfRangeFault : Obligations.CountersOutOfRangeFault :=
  fun _ => ⟨execEsLoad_of_outOfRange, execEsSched_of_outOfRange, execEsRound_of_outOfRange⟩

/-! ## The error entry -/

/-- The error entry leaves all but ERR and PHASE (R250). -/
theorem raiseError_frame (e : ErrCode) (s : State) :
    s.SameEngine (raiseError e s) ∧ s.SameMessage (raiseError e s) ∧ s.SameHostSide (raiseError e s) :=
  ⟨⟨rfl, rfl, rfl, rfl, rfl, rfl⟩, ⟨rfl, rfl, fun _ => rfl⟩, ⟨rfl, rfl, rfl⟩⟩

/-- Outside DONE every DIGEST register reads 0 (44_host_interface.md R213). -/
theorem digestWord_of_not_done (hp : s.phase ≠ Phase.done.code) (i : BitVec 3) : digestWord s i = 0 :=
  if_neg hp

/-- Settles O40: ERROR is not DONE, so the digest is hidden, and it is quiescent, so the engine's turn is O33's. -/
theorem errorEntryWritesErrAndPhaseOnly : Obligations.ErrorEntryWritesErrAndPhaseOnly := by
  intro s e
  obtain ⟨hengine, hmessage, hhost⟩ := raiseError_frame e s
  obtain ⟨-, -, -, hquiescent⟩ := quiescentPhasesHaveNoStep (raiseError e s)
  have hphase : (raiseError e s).phase = 8 := raiseError_phase s e
  have hnotDone : (raiseError e s).phase ≠ Phase.done.code := by
    rw [hphase]
    decide
  exact ⟨raiseError_err s e, hphase, hengine, hmessage, hhost, digestWord_of_not_done hnotDone,
    hquiescent (.inr (.inr hphase))⟩

end Sys2Proof.Machine
end

section
/-! PROOFS. Reset and hazards (70_reset_and_hazards.md): what reset leaves (O42) and that nobody sees the rest (O60), the way
back to IDLE (O58), the digest after a command in DONE (O49), and the host's sequence to a digest (O57). -/

namespace Sys2Proof.Machine

variable {msg : List Byte} {s t : State}

/-! ## STATUS -/

/-- Without an error and not busy, STATUS is PHASE (30_encoding.md R86). -/
theorem statusWord_of_quiet (he : s.err = ErrCode.noError.code) (hb : s.busy = false) :
    statusWord s = s.phase.setWidth 32 := by
  have hphase := s.phase.isLt
  have herr : s.err.toNat = 0 := congrArg BitVec.toNat he
  have hbusy : s.busy.toNat = 0 := congrArg Bool.toNat hb
  apply BitVec.eq_of_toNat_eq
  rw [toNat_statusWord, BitVec.toNat_setWidth]
  omega

/-- STATUS[3:0] is PHASE (R86). -/
theorem toNat_statusWord_mod (s : State) : (statusWord s).toNat % 16 = s.phase.toNat := by
  have hphase := s.phase.isLt
  rw [toNat_statusWord]
  omega

/-! ## What reset leaves -/

/-- IDLE without an error shows the host a STATUS of 0 and no digest (R270; 44_host_interface.md R213). -/
theorem reads_zero_of_idle (hp : s.phase = Phase.idle.code) (he : s.err = ErrCode.noError.code) :
    statusWord s = 0 ∧ ∀ i, digestWord s i = 0 := by
  have hb : s.busy = false := congrArg busyPhase hp
  refine ⟨?_, digestWord_of_not_done (by simp [hp])⟩
  rw [statusWord_of_quiet he hb, hp]
  rfl

/-- Settles O42: State.reset and the reset input both leave IDLE without an error over an empty MSGMEM. -/
theorem resetLeavesTheRuledValues : Obligations.ResetLeavesTheRuledValues := by
  refine ⟨⟨rfl, rfl, rfl, Memory.read_nil, reads_zero_of_idle rfl rfl⟩, fun s es hi => ?_⟩
  obtain ⟨hstatus, hdigest⟩ := reads_zero_of_idle (s := resetInput (s.withInputs es)) rfl rfl
  exact ⟨_, step_of_reset hi, rfl, rfl, rfl, Memory.read_nil, hstatus, hdigest, rfl, rfl, rfl⟩

/-! ## What reset leaves unspecified -/

/-- The relation of O59 along a run: a run that answers has its counterpart. -/
theorem State.HostSame.runSteps {u : State} {n : Nat} (h : s.HostSame u) (ht : runSteps n s = .next t) :
    ∃ t', runSteps n u = .next t' ∧ t.HostSame t' := by
  induction n generalizing s u with
  | zero =>
    obtain rfl := Host.Outcome.next.inj ht
    exact ⟨u, rfl, h⟩
  | succ n ih =>
    obtain ⟨s', hs, hrest⟩ := runSteps_succ_inv ht
    obtain ⟨u', hu, hsame⟩ := h.step.of_next hs
    rw [runSteps_succ_next hu]
    exact ih hsame hrest

/-- IDLE uses none of the registers that reset leaves unspecified (R270; 10_state.md R36). -/
theorem State.HostSame.withHidden_of_idle (hp : s.phase = Phase.idle.code) (h v : Vector Word 8) (w : Vector Word 64)
    (c : BitVec 7) (blk nblk : BitVec 64) : s.HostSame (s.withHidden h v w c blk nblk) where
  phase := rfl
  err := rfl
  msgLen := rfl
  mem := rfl
  msgCap := rfl
  inputs := rfl
  rdata := rfl
  draws := rfl
  hash := by simp [State.inBlocks, hp]
  counters := by simp [State.inBlocks, hp]
  schedule := by simp [hp]
  words := by simp [hp]
  rounds := by simp [hp]
  vars := by simp [hp]

theorem State.HostSame.digestBytes_eq {u : State} (h : s.HostSame u) : digestBytes u = digestBytes s := by
  have hbyte : digestByte u = digestByte s := funext fun n => congrArg (byteOf (n % 4)) (h.digestWord_eq _)
  rw [digestBytes, hbyte, digestBytes]

/-- Settles O60: in IDLE the other values are no difference to the host, and no step makes them one (O59). -/
theorem unspecifiedResetValuesAreNeverSeen : Obligations.UnspecifiedResetValuesAreNeverSeen := by
  intro s t h v w c blk nblk n hp ht
  obtain ⟨t', ht', hsame⟩ := (State.HostSame.withHidden_of_idle hp h v w c blk nblk).runSteps ht
  exact ⟨t', ht', hsame.rdata, hsame.statusWord_eq, hsame.digestBytes_eq⟩

/-! ## Back to IDLE -/

/-- What every step keeps holds at the end of every run. -/
theorem runSteps_keeps {P : State → Prop} (hstep : ∀ s t, P s → step s = .next t → P t) {n : Nat} (h : P s)
    (ht : runSteps n s = .next t) : P t := by
  induction n generalizing s with
  | zero =>
    obtain rfl := Host.Outcome.next.inj ht
    exact h
  | succ n ih =>
    obtain ⟨u, hu, hrest⟩ := runSteps_succ_inv ht
    exact ih (hstep s u h hu) hrest

/-- Every step consumes its event and no other (20_memory.md R60). -/
theorem step_inputs (h : step s = .next t) : t.inputs = s.restInputs := by
  obtain he | ⟨x, es, hi⟩ | ⟨es, hi⟩ := s.nextEvent_cases
  · obtain ⟨-, -, -, hin⟩ := engineNeverWritesTheMessage s t he h
    exact hin
  · obtain ⟨t', ht', hcases⟩ := step_host_cases hi (phase_le_of_host_next hi h)
    obtain rfl := Host.Outcome.next.inj (ht'.symm.trans h)
    rw [State.restInputs, hi]
    rcases hcases with ⟨_, -, _, _, rfl⟩ | ⟨_, -, rfl, -⟩ | ⟨_, -, -, -, -, rfl⟩ | ⟨_, -, -, -, -, -, rfl⟩ |
      ⟨_, -, -, -, _, rfl⟩ | ⟨_, -, -, -, _, -, rfl⟩
    all_goals rfl
  · obtain rfl := Host.Outcome.next.inj ((step_of_reset hi).symm.trans h)
    rw [State.restInputs, hi]
    rfl

/-- No engine row of the table of 43_digest.md R190 leads to IDLE. -/
theorem tableEnginePhase_ne_idle (hp : s.phase ≠ Phase.idle.code) : tableEnginePhase s ≠ Phase.idle.code := by
  unfold tableEnginePhase
  split_ifs
  all_goals simp [hp]

/-- No host row of the table leads to IDLE. -/
theorem tableHostPhase_ne_idle (hp : s.phase ≠ Phase.idle.code) (x : Transaction) :
    tableHostPhase s x ≠ Phase.idle.code := by
  cases x with
  | read _ => exact hp
  | write _ =>
    simp only [tableHostPhase]
    split_ifs
    all_goals simp [hp]

/-- Only the reset row of the table leads back to IDLE (R284). -/
theorem phase_ne_idle_of_step (hp : s.phase ≠ Phase.idle.code) (hr : s.inputs.head? ≠ some .reset)
    (h : step s = .next t) : t.phase ≠ Phase.idle.code := by
  obtain ⟨hphase, -⟩ := phaseAndErrMoveOnlyByTheTable s t h
  rw [hphase]
  obtain he | ⟨x, es, hi⟩ | ⟨es, hi⟩ := s.nextEvent_cases
  · obtain ⟨hrow, -⟩ := table_of_engineNext he
    rw [hrow]
    exact tableEnginePhase_ne_idle hp
  · simp only [tablePhase, hi]
    exact tableHostPhase_ne_idle hp x
  · simp [hi] at hr

/-- A PHASE other than IDLE, with no reset to come (R284). -/
def State.OutOfIdle (s : State) : Prop := s.phase ≠ Phase.idle.code ∧ Event.reset ∉ s.inputs

theorem State.OutOfIdle.of_step (h : s.OutOfIdle) (ht : step s = .next t) : t.OutOfIdle := by
  obtain ⟨hp, hr⟩ := h
  refine ⟨phase_ne_idle_of_step hp (fun hhead => hr (List.mem_of_head? hhead)) ht, ?_⟩
  rw [step_inputs ht]
  exact fun hmem => hr (List.mem_of_mem_tail hmem)

/-- Settles O58: `State.OutOfIdle` is kept by every step, and STATUS[3:0] is PHASE. -/
theorem idleReturnsOnlyByReset : Obligations.IdleReturnsOnlyByReset := by
  intro s t n hp hr ht
  obtain ⟨hidle, -⟩ := runSteps_keeps (P := State.OutOfIdle) (fun _ _ => State.OutOfIdle.of_step) ⟨hp, hr⟩ ht
  refine ⟨hidle, ?_⟩
  rw [toNat_statusWord_mod]
  exact fun h0 => hidle (BitVec.eq_of_toNat_eq h0)

/-! ## A command in DONE -/

/-- Settles O49: by the dispatch of R201 the command writes ERR and PHASE alone, and PAD and ERROR are not DONE. -/
theorem aCommandInDoneHidesTheDigest : Obligations.ACommandInDoneHidesTheDigest := by
  intro s word es hp hi ha
  have hb : s.busy = false := congrArg busyPhase hp
  obtain ⟨-, hnop, hstart, hillegal⟩ := commandWritesFollowTheDispatch s word es (by rw [hp]; decide) hi ha
  refine ⟨fun h0 => ?_, fun h0 => ⟨_, hnop hb h0, digestWord_congr rfl rfl⟩⟩
  by_cases h1 : TxWord.data word = 1
  · exact ⟨_, hstart hb h1, .inl rfl, digestWord_of_not_done (by simp [Phase.code]), ⟨rfl, rfl, rfl, rfl, rfl, rfl⟩,
      rfl, rfl, fun _ => rfl⟩
  · exact ⟨_, hillegal hb h0 h1, .inr rfl, digestWord_of_not_done (by simp [Phase.code]), ⟨rfl, rfl, rfl, rfl, rfl, rfl⟩,
      rfl, rfl, fun _ => rfl⟩

/-! ## Loading the message -/

/-- MSGMEM after the first `n` window writes of `msg` (30_encoding.md R93). -/
def Memory.loaded (msg : List Byte) (m : Memory) : Nat → Memory
  | 0 => m
  | n + 1 => (Memory.loaded msg m n).writeWord n (messageWord msg n)

/-- Lane `i` of word `k` is byte 4k + i of the message, or 0x00 past its end (R93). -/
theorem byteOf_messageWord (msg : List Byte) (k : Nat) {i : Nat} (hi : i < 4) :
    byteOf i (messageWord msg k) = msg.getD (4 * k + i) 0 := by
  obtain ⟨h0, h1, h2, h3⟩ :=
    byteOf_be32 (msg.getD (4 * k) 0) (msg.getD (4 * k + 1) 0) (msg.getD (4 * k + 2) 0) (msg.getD (4 * k + 3) 0)
  obtain rfl | rfl | rfl | rfl : i = 0 ∨ i = 1 ∨ i = 2 ∨ i = 3 := by omega
  · exact h0
  · exact h1
  · exact h2
  · exact h3

/-- The words written so far read back as the message. -/
theorem Memory.read_loaded (msg : List Byte) (m : Memory) {n j : Nat} (hj : j < 4 * n) :
    (Memory.loaded msg m n).read j = some (msg.getD j 0) := by
  induction n with
  | zero => omega
  | succ n ih =>
    by_cases hlt : j < 4 * n
    · exact (Memory.read_writeWord_outside _ n _ (.inl hlt)).trans (ih hlt)
    · obtain ⟨i, rfl⟩ : ∃ i, j = 4 * n + i := ⟨j - 4 * n, by omega⟩
      have hi : i < 4 := by omega
      rw [Memory.loaded, Memory.read_writeWord_lane _ _ _ hi, byteOf_messageWord msg n hi]

/-- The k-th event of `msg` (R93). -/
def msgWrite (msg : List Byte) (k : Nat) : Event := wr (windowOffset (BitVec.ofNat 30 k)) (messageWord msg k)

/-- Window writes from word 0 on, while not busy, load the message as far as they go (44_host_interface.md R209). -/
theorem runSteps_msgWrites (hc : Config.legalMsgCap s.msgCap) (hp : s.phase.toNat ≤ 8) (hb : s.busy = false) {n : Nat}
    (hn : 4 * n < s.msgCap + 4) {es : List Event} (hi : s.inputs = (List.range n).map (msgWrite msg) ++ es) :
    runSteps n s = .next ((s.withInputs es).withMem (Memory.loaded msg s.mem n)) := by
  induction n generalizing es with
  | zero =>
    obtain rfl : s.inputs = es := hi
    rfl
  | succ n ih =>
    have hfront : s.inputs = (List.range n).map (msgWrite msg) ++ msgWrite msg n :: es := by
      simpa [List.range_succ] using hi
    have hcap := hc.2.2
    have hk : (BitVec.ofNat 30 n).toNat = n := Nat.mod_eq_of_lt (by omega)
    have hword : Instr.windowWord s.msgCap (BitVec.ofNat 30 n) := by
      rw [Instr.windowWord, hk]
      omega
    rw [runSteps_add (ih (by omega) hfront)]
    have hwrite := step_windowWrite (s := (s.withInputs (msgWrite msg n :: es)).withMem (Memory.loaded msg s.mem n))
      rfl hc hword hp hb
    rw [runSteps_succ_next hwrite, hk]
    rfl

/-! ## Setting the length and starting -/

/-- A write of MSG_LEN_LO while not busy, as a step (R207). -/
theorem step_wr_msgLenLo {d : Word} {es : List Event} (hi : s.inputs = wr 8 d :: es) (hp : s.phase.toNat ≤ 8)
    (hb : s.busy = false) : step s = .next (setMsgLenLo d (s.withInputs es)) := by
  have hdec : decodeHost s.msgCap s.busy (.write (TxWord.mk 8 d)) = .wrMsgLenLo d :=
    decode_encodeWrite (classify_eq_msgLenLo.mpr rfl) s.busy d
  rw [step_of_host hi hp, hdec]
  exact next_unlessBusy_of_not_busy _ hb

/-- A write of MSG_LEN_HI while not busy, as a step (R208). -/
theorem step_wr_msgLenHi {d : Word} {es : List Event} (hi : s.inputs = wr 0xC d :: es) (hp : s.phase.toNat ≤ 8)
    (hb : s.busy = false) : step s = .next (setMsgLenHi d (s.withInputs es)) := by
  have hdec : decodeHost s.msgCap s.busy (.write (TxWord.mk 0xC d)) = .wrMsgLenHi d :=
    decode_encodeWrite (classify_eq_msgLenHi.mpr rfl) s.busy d
  rw [step_of_host hi hp, hdec]
  exact next_unlessBusy_of_not_busy _ hb

/-- An accepted START as a step (R203). -/
theorem step_wr_start {es : List Event} (hi : s.inputs = wr 0 1 :: es) (hp : s.phase.toNat ≤ 8) (hb : s.busy = false) :
    step s = .next (beginJob (s.withInputs es)) := by
  obtain ⟨-, -, hstart, -⟩ := commandWritesFollowTheDispatch s _ es hp hi (TxWord.addr_mk 0 1)
  exact hstart hb (TxWord.data_mk 0 1)

/-- The two halves of a length, written one after the other, are the length (R207, R208). -/
theorem setMsgLenHi_setMsgLenLo (len : BitVec 64) (s : State) :
    setMsgLenHi (len.extractLsb' 32 32) (setMsgLenLo (len.extractLsb' 0 32) s) = s.withMsgLen len := by
  have hlen : (setMsgLenHi (len.extractLsb' 32 32) (setMsgLenLo (len.extractLsb' 0 32) s)).msgLen = len := by
    apply BitVec.eq_of_toNat_eq
    rw [toNat_setMsgLenHi, toNat_setMsgLenLo, toNat_field, toNat_field]
    omega
  exact congrArg s.withMsgLen hlen

/-- `setlen` and `start` while not busy begin a job of that length (R93, R203). -/
theorem runSteps_setlen_start {len : BitVec 64} (hi : s.inputs = setlenScript len ++ startScript)
    (hp : s.phase.toNat ≤ 8) (hb : s.busy = false) :
    runSteps 3 s = .next (beginJob ((s.withInputs []).withMsgLen len)) := by
  have hlo := step_wr_msgLenLo (es := wr 0xC (len.extractLsb' 32 32) :: startScript) hi hp hb
  have hhi := step_wr_msgLenHi (es := startScript) (d := len.extractLsb' 32 32)
    (s := setMsgLenLo (len.extractLsb' 0 32) (s.withInputs (wr 0xC (len.extractLsb' 32 32) :: startScript))) rfl hp hb
  have hlen := setMsgLenHi_setMsgLenLo len (s.withInputs startScript)
  have hstart := step_wr_start (es := []) (s := (s.withInputs startScript).withMsgLen len) rfl hp hb
  rw [runSteps_succ_next hlo, runSteps_succ_next (hhi.trans (congrArg _ hlen))]
  exact runSteps_succ_next hstart

/-! ## The host's sequence -/

/-- The state in which the script leaves the core: the message loaded and its length set, the job begun, nothing to come. -/
def State.started (msg : List Byte) (s : State) : State :=
  beginJob (((s.withInputs []).withMem (Memory.loaded msg s.mem ((msg.length + 3) / 4))).withMsgLen
    (BitVec.ofNat 64 msg.length))

theorem runSteps_hashScript (hs : s.Inv) (hb : s.busy = false) (hfit : msg.length ≤ s.msgCap)
    (hi : s.inputs = hashScript msg) : runSteps (hashScript msg).length s = .next (s.started msg) := by
  have hlen : (hashScript msg).length = (msg.length + 3) / 4 + 3 := by
    simp [hashScript, msgScript, setlenScript, startScript]
  have hsplit : s.inputs = (List.range ((msg.length + 3) / 4)).map (msgWrite msg) ++
      (setlenScript (BitVec.ofNat 64 msg.length) ++ startScript) :=
    hi.trans (List.append_assoc _ _ _)
  rw [hlen, runSteps_add (runSteps_msgWrites hs.capLegal hs.phaseNamed hb (by omega) hsplit)]
  exact runSteps_setlen_start rfl hs.phaseNamed hb

theorem State.started_holdsMessage (hc : Config.legalMsgCap s.msgCap) (hfit : msg.length ≤ s.msgCap) :
    (s.started msg).HoldsMessage msg where
  length := Nat.mod_eq_of_lt (by have := hc.2.2; omega)
  fits := hfit
  bytes j hj := by
    have hread := Memory.read_loaded msg s.mem (n := (msg.length + 3) / 4) (j := j) (by omega)
    rwa [← List.getElem_eq_getD (h := hj) 0] at hread

/-- Settles O57: the script leads to PAD with the message written, the job to DONE (O55), and the invariant says that DONE
has no error (O44). -/
theorem hostSequenceHashesTheMessage : Obligations.HostSequenceHashesTheMessage := by
  intro msg s hs hb hfit hi
  have hscript := runSteps_hashScript hs hb hfit hi
  obtain ⟨⟨t, ht, hdone, hdigest⟩, -⟩ :=
    jobDeliversTheDigest msg (s.started msg) hs.capLegal (State.started_holdsMessage hs.capLegal hfit) rfl rfl
  have hrun := (runSteps_add hscript).trans ht
  have hinv : t.Inv := runSteps_keeps everyStepKeepsTheInvariant hs hrun
  have herr : t.err = ErrCode.noError.code := by
    by_contra hne
    exact absurd (hdone.symm.trans (hinv.errorPhase.mpr hne)) (by decide)
  have hquiet : t.busy = false := congrArg busyPhase hdone
  refine ⟨t, hrun, hdone, ?_, hdigest⟩
  rw [statusWord_of_quiet herr hquiet, hdone]
  rfl

end Sys2Proof.Machine
end
